-- ==== Sys2Proof/Word.lean ====
section
/-! DEFINITION. The word types of the engine (00_scope.md R3: W = 64, CMD_BITS = 32). -/

namespace Sys2Proof

/-- A coefficient, a modulus, a DIN, DOUT or entropy word: W = 64 bits (R3). -/
abbrev Word := BitVec 64

/-- A command word: CMD_BITS = 32 bits (R3, R50). -/
abbrev Cmd := BitVec 32

/-- The 16-bit immediate `imm = word[15:0]`, also the width of RING_N, SIGMA and MSG_LEN (R53, R16, R19, R20). -/
abbrev Imm := BitVec 16

/-- A byte of MSGBUF, of a digest, of a serialised element (R20, R31). -/
abbrev Byte := BitVec 8

/-- A polynomial register number 0 to 7, all eight legal (R11, R53). -/
abbrev Reg := Fin 8

end Sys2Proof
end

