-- ==== Sys2Proof/Config.lean ====
section
/-! DEFINITION. What an implementation fixes (00_scope.md R3): the OPEN parameters, the two uninterpreted
functions HASH (20_memory.md R38) and GAUSS (42_sampler.md R106), and the named properties of R108. -/

namespace Sys2Proof.Config

/-- CTR_ENDIAN, the byte order of ENCH's counter (R3, R117). -/
inductive Endian where
  | little
  | big
  deriving DecidableEq, Repr

/-- ENCR_OVERLEN, what ENCR does with more message bits than n (R3, R119). -/
inductive Overlen where
  | fault
  | truncate
  deriving DecidableEq, Repr

/-- The OPEN parameters of R3 that are numbers or choices. State carries them; no step writes them.
DESIGN CHOICE (log 1). -/
structure Params where
  /-- N_MAX, the largest ring dimension. -/
  nMax : Nat
  /-- MSG_MAX, the capacity of MSGBUF in bytes. -/
  msgMax : Nat
  /-- REJECT_LIMIT, the rejections per coefficient at which SAMPU gives up. -/
  rejectLimit : Nat
  ctrEndian : Endian
  encrOverlen : Overlen
  deriving DecidableEq, Repr

/-- The defaults of R3. -/
def Params.default : Params :=
  { nMax := 1024, msgMax := 256, rejectLimit := 128, ctrEndian := .little, encrOverlen := .fault }

/-- DIGEST_BYTES = 32 bytes, `D[0]` first (R3, R38). -/
abbrev Digest := Vector Byte 32

/-- HASH: a total function of the byte string alone, of which nothing else is assumed (R38, 93 U7).
A free value: no body (log 4). -/
opaque hash : List Byte → Digest

/-- GAUSS (w1, w2, raw SIGMA): a total function of its three arguments alone, uninterpreted (R106, 93 U6).
A free value: no body (log 9). -/
opaque gauss : Word → Word → Imm → Int

/-- GAUSS_BOUND(sg) = floor(9 · sg / 256) + 1 (R108 (a)). -/
def gaussBound (sg : Imm) : Nat := 9 * sg.toNat / 256 + 1

/-- GAUSS_TAIL (R108 (a)), a property of a candidate GAUSS; never assumed silently. -/
def GaussTail (g : Word → Word → Imm → Int) : Prop :=
  ∀ w1 w2 sg, (g w1 w2 sg).natAbs ≤ gaussBound sg

/-- GAUSS_ZERO (R108 (b)), a property of a candidate GAUSS; never assumed silently. -/
def GaussZero (g : Word → Word → Imm → Int) : Prop :=
  ∀ w1 w2, g w1 w2 0 = 0

/-- `s = GAUSS_ideal(w1, w2, sg)` (R107): with `u1 = (floor(w1 / 2^11) + 1) / 2^53`, `u2 = floor(w2 / 2^11) / 2^53`
and `σ = sg / 256`, `s` is `z = σ · sqrt(−2 · ln u1) · cos(2π · u2)` rounded to the nearest integer, a tie going
away from zero. -/
def IsGaussIdeal (w1 w2 : Word) (sg : Imm) (s : Int) : Prop :=
  let u1 : ℝ := ((w1.toNat / 2 ^ 11 + 1 : ℕ) : ℝ) / 2 ^ 53
  let u2 : ℝ := ((w2.toNat / 2 ^ 11 : ℕ) : ℝ) / 2 ^ 53
  let z : ℝ := (sg.toNat : ℝ) / 256 * Real.sqrt (-2 * Real.log u1) * Real.cos (2 * Real.pi * u2)
  |z - s| ≤ 1 / 2 ∧ (|z - s| = 1 / 2 → |z| ≤ |(s : ℝ)|)

/-- GAUSS_NEAR (R108 (c)), a property of a candidate GAUSS; never assumed silently. -/
def GaussNear (g : Word → Word → Imm → Int) : Prop :=
  ∀ w1 w2 sg s, IsGaussIdeal w1 w2 sg s → (g w1 w2 sg - s).natAbs ≤ 1

end Sys2Proof.Config
end

