-- ==== Sys2Proof/Syntax.lean ====
section
/-! DEFINITION. The commands (30_encoding.md R54), one constructor per row of spec/opcode_table.json. Operands have
exactly the values their fields admit (R51, R52, R53). -/

namespace Sys2Proof

/-- A command of the engine, in the order of R54. -/
inductive Instr where
  /-- NOP (R125). -/
  | nop
  /-- CLRF (R126). -/
  | clrf
  /-- SETN n (R127). -/
  | setn (imm : Imm)
  /-- SETQ, the modulus from DIN (R128). -/
  | setq
  /-- SETK, the scalar from DIN (R129). -/
  | setk
  /-- SETSIG s (R130). -/
  | setsig (imm : Imm)
  /-- ZERO Pd (R71). -/
  | zero (rd : Reg)
  /-- LOAD Pd, count (R72). -/
  | load (rd : Reg) (imm : Imm)
  /-- STORE Pa (R73). -/
  | store (ra : Reg)
  /-- SER Pa (R74). -/
  | ser (ra : Reg)
  /-- LDMSG len (R75). -/
  | ldmsg (imm : Imm)
  /-- ADD Pd, Pa, Pb (R82). -/
  | add (rd ra rb : Reg)
  /-- SUB Pd, Pa, Pb (R83). -/
  | sub (rd ra rb : Reg)
  /-- NEG Pd, Pa (R84). -/
  | neg (rd ra : Reg)
  /-- MUL Pd, Pa, Pb (R86). -/
  | mul (rd ra rb : Reg)
  /-- SMUL Pd, Pa (R87). -/
  | smul (rd ra : Reg)
  /-- SIGNAL Pd, Pa (R88). -/
  | signal (rd ra : Reg)
  /-- SAMPU Pd (R101). -/
  | sampu (rd : Reg)
  /-- SAMPG Pd (R104). -/
  | sampg (rd : Reg)
  /-- ENCH Pd (R116). -/
  | ench (rd : Reg)
  /-- ENCR Pd (R119). -/
  | encr (rd : Reg)
  deriving DecidableEq, Repr

/-- Why a word is no command (R55); both reasons raise ILLEGAL_COMMAND. -/
inductive IllegalWord where
  /-- The `op` field is none of R54's 21 values. -/
  | unassignedOp
  /-- The `op` is listed, with a 1 in a must-be-zero bit of its sub-form. -/
  | mustBeZeroSet
  deriving DecidableEq, Repr

/-- What the decoder answers: one of the 21 commands, or illegal (R55, R56). -/
inductive Decoded where
  | instr (i : Instr)
  | illegal (why : IllegalWord)
  deriving DecidableEq, Repr

/-- A row of the opcode map of R54. -/
structure OpcodeRow where
  mnemonic : String
  pattern : Cmd
  mask : Cmd
  deriving DecidableEq, Repr

end Sys2Proof
end

