-- ==== Sys2Proof/WellFormed.lean ====
section
/-! DEFINITION. Well-formedness. Instr needs no check: the type of every operand holds exactly the values of its field
(R51, R52, R53), so no ill-formed command term exists. Two checks remain: a 32-bit word is a legal command word (R54, R55),
and a configuration is in range (R3, 93 U10 `refuse`). -/

namespace Sys2Proof

/-- "Power of two" (R127): `imm & (imm − 1) = 0` with imm ≥ 1. -/
def isPowerOfTwo (x : Nat) : Bool := x != 0 && x &&& (x - 1) == 0

/-- The ranges of R3 that a configuration must meet (93 U10). -/
def Config.Params.wellFormed (c : Config.Params) : Bool :=
  isPowerOfTwo c.nMax && decide (16 ≤ c.nMax) && decide (c.nMax ≤ 32768)
    && decide (64 ≤ c.msgMax) && decide (c.msgMax ≤ 65535) && decide (1 ≤ c.rejectLimit)

/-- The opcode map of R54, row by row: mnemonic, match, mask. -/
def opcodeMap : List OpcodeRow :=
  [⟨"NOP", 0x01000000#32, 0xFFFFFFFF#32⟩, ⟨"CLRF", 0x02000000#32, 0xFFFFFFFF#32⟩,
   ⟨"SETN", 0x10000000#32, 0xFFFF0000#32⟩, ⟨"SETQ", 0x11000000#32, 0xFFFFFFFF#32⟩,
   ⟨"SETK", 0x12000000#32, 0xFFFFFFFF#32⟩, ⟨"SETSIG", 0x13000000#32, 0xFFFF0000#32⟩,
   ⟨"ZERO", 0x20000000#32, 0xFF1FFFFF#32⟩, ⟨"LOAD", 0x21000000#32, 0xFF1F0000#32⟩,
   ⟨"STORE", 0x22000000#32, 0xFFE3FFFF#32⟩, ⟨"SER", 0x23000000#32, 0xFFE3FFFF#32⟩,
   ⟨"LDMSG", 0x24000000#32, 0xFFFF0000#32⟩]
  ++ [⟨"ADD", 0x30000000#32, 0xFF007FFF#32⟩, ⟨"SUB", 0x31000000#32, 0xFF007FFF#32⟩,
   ⟨"NEG", 0x32000000#32, 0xFF03FFFF#32⟩, ⟨"MUL", 0x33000000#32, 0xFF007FFF#32⟩,
   ⟨"SMUL", 0x34000000#32, 0xFF03FFFF#32⟩, ⟨"SIGNAL", 0x35000000#32, 0xFF03FFFF#32⟩,
   ⟨"SAMPU", 0x40000000#32, 0xFF1FFFFF#32⟩, ⟨"SAMPG", 0x41000000#32, 0xFF1FFFFF#32⟩,
   ⟨"ENCH", 0x50000000#32, 0xFF1FFFFF#32⟩, ⟨"ENCR", 0x51000000#32, 0xFF1FFFFF#32⟩]

/-- The word is the row's command: `(w & mask) = match` (R54). -/
def OpcodeRow.Matches (r : OpcodeRow) (w : Cmd) : Prop := w &&& r.mask = r.pattern

/-- The word matches some row of the opcode map (R54, R55). -/
def legalWord (w : Cmd) : Bool := opcodeMap.any fun r => w &&& r.mask == r.pattern

/-- The mnemonic of a command, as R54 spells it. -/
def Instr.mnemonic : Instr → String
  | .nop => "NOP" | .clrf => "CLRF" | .setn _ => "SETN" | .setq => "SETQ" | .setk => "SETK"
  | .setsig _ => "SETSIG" | .zero _ => "ZERO" | .load _ _ => "LOAD" | .store _ => "STORE" | .ser _ => "SER"
  | .ldmsg _ => "LDMSG" | .add _ _ _ => "ADD" | .sub _ _ _ => "SUB" | .neg _ _ => "NEG" | .mul _ _ _ => "MUL"
  | .smul _ _ => "SMUL" | .signal _ _ => "SIGNAL" | .sampu _ => "SAMPU" | .sampg _ => "SAMPG"
  | .ench _ => "ENCH" | .encr _ => "ENCR"

end Sys2Proof
end

