-- ==== Sys2Proof/Decode.lean ====
section
/-! DEFINITION. The decoder (30_encoding.md R51, R52, R54, R55, R56), total on 32-bit words, and after it the encoder,
written from the same formats. -/

namespace Sys2Proof

/-- `w[hi:lo]`, as an unsigned number (00_scope.md section 4). -/
def bitField (w : Cmd) (hi lo : Nat) : Nat := w.toNat / 2 ^ lo % 2 ^ (hi + 1 - lo)

/-- `op = w[31:24]` (R56). -/
def opField (w : Cmd) : Nat := bitField w 31 24

/-- `rd = w[23:21]` (R51, R52). -/
def rdField (w : Cmd) : Reg := Fin.ofNat 8 (bitField w 23 21)

/-- `ra = w[20:18]` (R51). -/
def raField (w : Cmd) : Reg := Fin.ofNat 8 (bitField w 20 18)

/-- `rb = w[17:15]` (R51). -/
def rbField (w : Cmd) : Reg := Fin.ofNat 8 (bitField w 17 15)

/-- `imm = w[15:0]` (R52, R53). -/
def immField (w : Cmd) : Imm := BitVec.ofNat 16 (bitField w 15 0)

/-- The command `i` when the must-be-zero bits of its sub-form are zero, else illegal (R51, R52, R55). -/
def whenZero (zero : Bool) (i : Instr) : Decoded :=
  if zero then .instr i else .illegal .mustBeZeroSet

/-- Sub-form RRR: bits 14:0 are zero (R51). -/
def zeroRRR (w : Cmd) : Bool := bitField w 14 0 == 0
/-- Sub-form RR: bits 17:0 are zero (R51). -/
def zeroRR (w : Cmd) : Bool := bitField w 17 0 == 0
/-- Sub-form RD: bits 20:0 are zero (R51). -/
def zeroRD (w : Cmd) : Bool := bitField w 20 0 == 0
/-- Sub-form RA: bits 23:21 and 17:0 are zero (R51). -/
def zeroRA (w : Cmd) : Bool := bitField w 23 21 == 0 && bitField w 17 0 == 0
/-- Sub-form RZ: bits 23:0 are zero (R51). -/
def zeroRZ (w : Cmd) : Bool := bitField w 23 0 == 0
/-- Sub-form ID: bits 20:16 are zero (R52). -/
def zeroID (w : Cmd) : Bool := bitField w 20 16 == 0
/-- Sub-form IZ: bits 23:16 are zero (R52). -/
def zeroIZ (w : Cmd) : Bool := bitField w 23 16 == 0

/-- The decode procedure of R56: look `op` up in R54, check the sub-form's must-be-zero bits, extract its fields.
It reads no state. -/
def decode (w : Cmd) : Decoded :=
  match opField w with
  | 0x01 => whenZero (zeroRZ w) .nop
  | 0x02 => whenZero (zeroRZ w) .clrf
  | 0x10 => whenZero (zeroIZ w) (.setn (immField w))
  | 0x11 => whenZero (zeroRZ w) .setq
  | 0x12 => whenZero (zeroRZ w) .setk
  | 0x13 => whenZero (zeroIZ w) (.setsig (immField w))
  | 0x20 => whenZero (zeroRD w) (.zero (rdField w))
  | 0x21 => whenZero (zeroID w) (.load (rdField w) (immField w))
  | 0x22 => whenZero (zeroRA w) (.store (raField w))
  | 0x23 => whenZero (zeroRA w) (.ser (raField w))
  | 0x24 => whenZero (zeroIZ w) (.ldmsg (immField w))
  | 0x30 => whenZero (zeroRRR w) (.add (rdField w) (raField w) (rbField w))
  | 0x31 => whenZero (zeroRRR w) (.sub (rdField w) (raField w) (rbField w))
  | 0x32 => whenZero (zeroRR w) (.neg (rdField w) (raField w))
  | 0x33 => whenZero (zeroRRR w) (.mul (rdField w) (raField w) (rbField w))
  | 0x34 => whenZero (zeroRR w) (.smul (rdField w) (raField w))
  | 0x35 => whenZero (zeroRR w) (.signal (rdField w) (raField w))
  | 0x40 => whenZero (zeroRD w) (.sampu (rdField w))
  | 0x41 => whenZero (zeroRD w) (.sampg (rdField w))
  | 0x50 => whenZero (zeroRD w) (.ench (rdField w))
  | 0x51 => whenZero (zeroRD w) (.encr (rdField w))
  | _ => .illegal .unassignedOp

/-- The command the decoder reads from bits numbered as spec/opcode_table.json numbers them: one word of 32 bits,
bits above `nbits` zero (R50). -/
def decodeTableWord (nbits w : Nat) : Option Instr :=
  match decode (BitVec.ofNat 32 (w % 2 ^ nbits)) with
  | .instr i => some i
  | .illegal _ => none

/-- The R format: `op` at 31:24, `rd` at 23:21, `ra` at 20:18, `rb` at 17:15, bits 14:0 zero (R51). -/
def encodeR (op : Nat) (rd ra rb : Reg) : Cmd :=
  BitVec.ofNat 32 (op * 2 ^ 24 + rd.val * 2 ^ 21 + ra.val * 2 ^ 18 + rb.val * 2 ^ 15)

/-- The I format: `op` at 31:24, `rd` at 23:21, bits 20:16 zero, `imm` at 15:0 (R52). -/
def encodeI (op : Nat) (rd : Reg) (imm : Imm) : Cmd :=
  BitVec.ofNat 32 (op * 2 ^ 24 + rd.val * 2 ^ 21 + imm.toNat)

/-- The word of a command (R54): fields a sub-form does not use are 0 (R51, R52). -/
def encode : Instr → Cmd
  | .nop => encodeR 0x01 0 0 0
  | .clrf => encodeR 0x02 0 0 0
  | .setn imm => encodeI 0x10 0 imm
  | .setq => encodeR 0x11 0 0 0
  | .setk => encodeR 0x12 0 0 0
  | .setsig imm => encodeI 0x13 0 imm
  | .zero rd => encodeR 0x20 rd 0 0
  | .load rd imm => encodeI 0x21 rd imm
  | .store ra => encodeR 0x22 0 ra 0
  | .ser ra => encodeR 0x23 0 ra 0
  | .ldmsg imm => encodeI 0x24 0 imm
  | .add rd ra rb => encodeR 0x30 rd ra rb
  | .sub rd ra rb => encodeR 0x31 rd ra rb
  | .neg rd ra => encodeR 0x32 rd ra 0
  | .mul rd ra rb => encodeR 0x33 rd ra rb
  | .smul rd ra => encodeR 0x34 rd ra 0
  | .signal rd ra => encodeR 0x35 rd ra 0
  | .sampu rd => encodeR 0x40 rd 0 0
  | .sampg rd => encodeR 0x41 rd 0 0
  | .ench rd => encodeR 0x50 rd 0 0
  | .encr rd => encodeR 0x51 rd 0 0

end Sys2Proof
end

