-- ==== Sys2Proof/Machine/State.lean ====
section
/-! DEFINITION. The state of the engine (10_state.md R10 to R26) as plain data, and the state after reset. -/

namespace Sys2Proof.Machine

/-- A ring element: its tag (n, q) and its coefficients, index j the coefficient of x^j (R11). Nothing at index n
or above is represented (93 U4). -/
structure Element where
  n : Imm
  q : Word
  c : List Word
  deriving DecidableEq, Repr

/-- CAUSE: the nine values it can hold (R141, 93 U2). -/
inductive Cause where
  | none
  | illegalCommand
  | configError
  | dimensionMismatch
  | sizeMismatch
  | entropyUnavailable
  | samplerExhausted
  | uninitOperand
  | messageTooLong
  deriving DecidableEq, Repr

/-- One answer of the entropy port: a 64-bit word, or the failure indication (R37). -/
inductive EntropyAnswer where
  | word (w : Word)
  | failure
  deriving DecidableEq, Repr

/-- MSGBUF: the bytes at index below MSG_LEN, by rising index. An index not listed holds no value (R20, 93 U4, log 8). -/
abbrev Memory := List Host.Cell

/-- The canonical form: indexes strictly rising. -/
def Memory.wf : Memory → Bool
  | [] => true
  | [_] => true
  | a :: b :: rest => decide (a.1 < b.1) && Memory.wf (b :: rest)

/-- The engine's state (R10), the command in progress that BUSY is a function of (R22), and what stands at its input
ports. -/
structure State where
  /-- The OPEN parameters (R3); written by no step (log 1). -/
  params : Config.Params
  /-- P0 to P7, each invalid (`none`) or holding one element (R11, R13). -/
  p : Vector (Option Element) 8
  /-- RING_N (R16). -/
  ringN : Imm
  /-- RING_Q (R17). -/
  ringQ : Word
  /-- K (R18). -/
  k : Word
  /-- SIGMA (R19). -/
  sigma : Imm
  /-- MSG_LEN (R20). -/
  msgLen : Imm
  /-- MSGBUF (R20). -/
  msgbuf : Memory
  /-- FAULT (R21). -/
  fault : Bool
  /-- CAUSE (R21). -/
  cause : Cause
  /-- FCMD (R21). -/
  fcmd : Cmd
  /-- The DIN stream, head first (R23). -/
  din : List Word
  /-- The DOUT stream, head first (R23). -/
  dout : List Word
  /-- The command taken from the CMD port that is not over, if any (R22, R32; log 5). -/
  cur : Option Cmd
  /-- What the host offers at the CMD port, oldest first (R32; log 2). -/
  cmdIn : List Cmd
  /-- What the entropy port answers to the next requests, in order (R37; log 3). -/
  ent : List EntropyAnswer
  /-- The hash port is not answering at present (R179; log 4). -/
  hashWaits : Bool
  /-- The input `rst` is asserted (R39, R170; log 6). -/
  rstIn : Bool
  deriving DecidableEq, Repr

/-- What stops the machine for good. The spec's own faults are not here: they leave a next state (R146). -/
inductive Fault where
  /-- Raised by ENCH and ENCR when MSGBUF holds no value at an index below MSG_LEN. No state a run reaches does
  (R20: those bytes were written by the LDMSG that set MSG_LEN). Safe: the model stops. -/
  | messageByteAbsent
  deriving DecidableEq, Repr

/-- What the model declines to give a meaning. -/
inductive Refusal where
  /-- Raised by exec's arm of an instruction that has no meaning yet; no arm does. Safe: the model stops. -/
  | notModelled (mnemonic : String)
  deriving DecidableEq, Repr

/-- The state after reset of an engine with parameters `c` (R26, R170); every port idle. -/
def State.resetWith (c : Config.Params) : State :=
  { params := c
    p := Vector.replicate 8 none
    ringN := 0, ringQ := 0, k := 0, sigma := 0x0300, msgLen := 0, msgbuf := []
    fault := false, cause := .none, fcmd := 0
    din := [], dout := []
    cur := none, cmdIn := [], ent := [], hashWaits := false, rstIn := false }

/-- The machine right after reset (R26), with the default parameters of R3 (log 1). -/
def State.reset : State := State.resetWith Config.Params.default

end Sys2Proof.Machine
end

