-- ==== Sys2Proof/Machine/Flags.lean ====
section
/-! DEFINITION. The status flags (10_state.md R21, R22) and the status outputs (20_memory.md R39). There are no arithmetic
flags: no carry, zero, sign or overflow flag exists (R21, R89). -/

namespace Sys2Proof.Machine

/-- The 4-bit cause code (R141). -/
def Cause.code : Cause → BitVec 4
  | .none => 0x0#4
  | .illegalCommand => 0x1#4
  | .configError => 0x2#4
  | .dimensionMismatch => 0x3#4
  | .sizeMismatch => 0x4#4
  | .entropyUnavailable => 0x5#4
  | .samplerExhausted => 0x6#4
  | .uninitOperand => 0x7#4
  | .messageTooLong => 0x8#4

/-- BUSY: a command has been taken and is not over (R22). -/
def State.busy (s : State) : Bool := s.cur.isSome

/-- The command is over: BUSY falls (R22). -/
def State.finish (s : State) : State := { s with cur := none }

/-- The status bits at acknowledge: FAULT, CAUSE and FCMD are 0 (R126). -/
def State.clearFault (s : State) : State := { s with fault := false, cause := .none, fcmd := 0 }

/-- The status outputs `busy_o`, `fault_o`, `cause_o[3:0]`, `fcmd_o[31:0]` (R39). -/
structure StatusOutputs where
  busy : Bool
  fault : Bool
  cause : BitVec 4
  fcmd : Cmd
  deriving DecidableEq, Repr

/-- What the host samples, without side effect (R39). `fault_o` is also the one interrupt request (R143). -/
def State.status (s : State) : StatusOutputs :=
  { busy := s.busy, fault := s.fault, cause := s.cause.code, fcmd := s.fcmd }

end Sys2Proof.Machine
end

