-- ==== Sys2Proof/Machine/Operands.lean ====
section
/-! DEFINITION. Numbers, bits and bytes of operands: fmod, half, cdist (00_scope.md R4, R5), bitlen (42_sampler.md R102),
byte order (20_memory.md R31, R35), the counter bytes (43_encoder.md R117). -/

namespace Sys2Proof.Machine

/-- The floor remainder: for q ≥ 1 the unique r with 0 ≤ r < q and q dividing x − r (R4). -/
def fmod (x q : Int) : Int := x % q

/-- `half(q) = floor(q / 2)` (R5). -/
def half (q : Nat) : Nat := q / 2

/-- The cyclic distance `min(|a − b|, q − |a − b|)` (R5). -/
def cdist (a b q : Int) : Int := min (a - b).natAbs (q - (a - b).natAbs)

/-- `bitlen(x)`, the least b with x < 2^b (R102). -/
def bitlen (x : Nat) : Nat := if x = 0 then 0 else Nat.log2 x + 1

/-- An exact integer reduced into [0, q), as a coefficient (R4, R12, R89). -/
def coeff (x : Int) (q : Word) : Word := BitVec.ofNat 64 (fmod x q.toNat).toNat

/-- Byte `t` of a word, `w[8t+7 : 8t]` (R31, R35). -/
def wordByte (w : Word) (t : Nat) : Byte := w.extractLsb' (8 * t) 8

/-- The 8 bytes of a word, least significant first (R31). -/
def wordBytes (w : Word) : List Byte := (List.range 8).map (wordByte w)

/-- The L bytes that arrive packed eight to a DIN word; positions at or beyond L are ignored (R35). -/
def unpackBytes (len : Nat) (ws : List Word) : List Byte := (ws.flatMap wordBytes).take len

/-- `ceil(L / 8)`, the DIN words of an L-byte message (R35). -/
def messageWords (len : Nat) : Nat := (len + 7) / 8

/-- The bits of a byte string, byte 0 first, most significant bit first (R116, R119). -/
def msbBits (bs : List Byte) : List Bool :=
  bs.flatMap fun y => [7, 6, 5, 4, 3, 2, 1, 0].map fun t => y.getLsbD t

/-- `ctr_bytes(ctr)`, the 4 bytes of the block counter in the order CTR_ENDIAN says (R117). -/
def counterBytes (e : Config.Endian) (ctr : BitVec 32) : List Byte :=
  let le := [0, 1, 2, 3].map fun t => ctr.extractLsb' (8 * t) 8
  match e with
  | .little => le
  | .big => le.reverse

/-- The words SER emits: the dimension, the modulus, the coefficients (R74). -/
def serWords (e : Element) : List Word := e.n.setWidth 64 :: e.q :: e.c

/-- `toBytes`, the byte string SER's words stand for (R76). -/
def toBytes (e : Element) : List Byte := (serWords e).flatMap wordBytes

end Sys2Proof.Machine
end

