-- ==== Sys2Proof/Machine/Ops.lean ====
section
/-! DEFINITION. The shared operations over State: registers, MSGBUF, the streams, fault entry and return
(00_scope.md section 4, 60_exceptions.md R146, R148), holding on a port (20_memory.md R33). -/

namespace Sys2Proof.Machine

/-- What a command answers. -/
abbrev Result := Host.Outcome State Fault Refusal

/-- `raise X(cmd)`, fault entry: FAULT, CAUSE and FCMD written, BUSY low, nothing else changed (R146). -/
def State.raise (x : Cause) (cmd : Cmd) (s : State) : State :=
  { s with fault := true, cause := x, fcmd := cmd, cur := none }

/-- The return from a fault, which is CLRF's whole effect: the status cleared, DIN emptied (R126, R148). -/
def State.acknowledge (s : State) : State := { s.clearFault with din := [] }

/-- The command waits for a port: BUSY stays 1, nothing else changes (R33, R179). -/
def State.hold (cmd : Cmd) (s : State) : State := { s with cur := some cmd }

/-- `P[r]`: the element, or `none` when the register is invalid (R13). -/
def State.readReg (r : Reg) (s : State) : Option Element := s.p[r]

/-- `P[r] <- e`: valid, tag and all coefficients at once (R11). -/
def State.writeReg (r : Reg) (e : Element) (s : State) : State :=
  { s with p := s.p.set r (some e) }

/-- `DoutPush` of each word in order (R34). -/
def State.pushDout (ws : List Word) (s : State) : State := { s with dout := s.dout ++ ws }

/-- Remove the m oldest words of DIN (R33). -/
def State.dropDin (m : Nat) (s : State) : State := { s with din := s.din.drop m }

/-- The entropy answers that remain after a command's requests (R37). -/
def State.setEnt (ent : List EntropyAnswer) (s : State) : State := { s with ent := ent }

/-- The byte a MSGBUF index holds, if it holds one (R20, log 8). -/
def Memory.read : Memory → Nat → Option Byte
  | [], _ => none
  | (b, v) :: rest, a => if a = b then some v else if a < b then none else Memory.read rest a

/-- `MemWrite(a, 1, v)`, keeping the canonical form (R20). -/
def Memory.write : Memory → Nat → Byte → Memory
  | [], a, v => [(a, v)]
  | (b, w) :: rest, a, v =>
    if a < b then (a, v) :: (b, w) :: rest
    else if a = b then (a, v) :: rest
    else (b, w) :: Memory.write rest a v

/-- Write consecutive bytes from index `a` up. -/
def Memory.writeBytes : Memory → Nat → List Byte → Memory
  | m, _, [] => m
  | m, a, v :: vs => Memory.writeBytes (m.write a v) (a + 1) vs

/-- Read `len` consecutive bytes from index `a` up; `none` when one of them is absent. -/
def Memory.readBytes (m : Memory) : Nat → Nat → Option (List Byte)
  | _, 0 => some []
  | a, len + 1 =>
    match m.read a, Memory.readBytes m (a + 1) len with
    | some v, some vs => some (v :: vs)
    | _, _ => none

/-- The message `M = MSGBUF[0 .. MSG_LEN−1]` (R115). -/
def State.message (s : State) : Option (List Byte) := s.msgbuf.readBytes 0 s.msgLen.toNat

/-- LDMSG's write: MSG_LEN and the bytes below it, set together. Bytes of an older message at or beyond the new length
are no longer represented (R20, R75, 93 U4, log 8). -/
def State.setMessage (bs : List Byte) (s : State) : State :=
  { s with msgLen := BitVec.ofNat 16 bs.length, msgbuf := Memory.writeBytes [] 0 bs }

/-- The command removes `m` words from DIN, all at once when the last of them is there, else it holds (R33). -/
def withDin (cmd : Cmd) (m : Nat) (s : State) (body : List Word → State → Result) : Result :=
  if s.din.length < m then .next (s.hold cmd) else body (s.din.take m) (s.dropDin m)

/-- The creation precondition: RING_N and RING_Q are set, else CONFIG_ERROR (R70). -/
def withRing (cmd : Cmd) (s : State) (body : Imm → Word → Result) : Result :=
  if s.ringN = 0 ∨ s.ringQ = 0 then .next (s.raise .configError cmd) else body s.ringN s.ringQ

/-- One source register, else UNINIT_OPERAND (R81). -/
def withSource (cmd : Cmd) (ra : Reg) (s : State) (body : Element → Result) : Result :=
  match s.readReg ra with
  | none => .next (s.raise .uninitOperand cmd)
  | some a => body a

/-- Two source registers, `ra` checked before `rb`, then their tags (R80, R144). -/
def withSources (cmd : Cmd) (ra rb : Reg) (s : State) (body : Element → Element → Result) : Result :=
  withSource cmd ra s fun a => withSource cmd rb s fun b =>
    if a.n = b.n ∧ a.q = b.q then body a b else .next (s.raise .dimensionMismatch cmd)

/-- The command completes with `e` in `rd` (R11, R22). -/
def complete (rd : Reg) (e : Element) (s : State) : Result := .next (s.writeReg rd e).finish

end Sys2Proof.Machine
end

