-- ==== Sys2Proof/Machine/Arith.lean ====
section
/-! DEFINITION. ADD, SUB, NEG, MUL, SMUL, SIGNAL (41_ring_arithmetic.md R80 to R93). Every intermediate is an exact integer,
reduced with fmod (R89). -/

namespace Sys2Proof.Machine

/-- The coefficients of a + b (R82). -/
def addCoeffs (q : Word) (a b : List Word) : List Word :=
  List.zipWith (fun x y => coeff ((x.toNat : Int) + y.toNat) q) a b

/-- The coefficients of a − b (R83). -/
def subCoeffs (q : Word) (a b : List Word) : List Word :=
  List.zipWith (fun x y => coeff ((x.toNat : Int) - y.toNat) q) a b

/-- The coefficients of −a: 0 for 0, else q − a[j] (R84). -/
def negCoeffs (q : Word) (a : List Word) : List Word :=
  a.map fun x => if x = 0 then 0 else q - x

/-- One inner round of MUL: `acc[i+j] <- fmod(acc[i+j] + fmod(x · b[j], q), q)` for each j (R86). -/
def mulRow (q : Nat) (i : Nat) (x : Word) (b : List Word) (acc : List Nat) : List Nat :=
  b.zipIdx.foldl (fun acc yj => acc.modify (i + yj.2) fun t => (t + x.toNat * yj.1.toNat % q) % q) acc

/-- The double-length accumulator of MUL, 2n entries (R86). -/
def mulAcc (n q : Nat) (a b : List Word) : List Nat :=
  a.zipIdx.foldl (fun acc xi => mulRow q xi.2 xi.1 b acc) (List.replicate (2 * n) 0)

/-- The coefficients of a · b: `c[i] = fmod(acc[i] − acc[i+n], q)`, the rule xⁿ ≡ −1 (R86). -/
def mulCoeffs (n : Nat) (q : Word) (a b : List Word) : List Word :=
  let acc := mulAcc n q.toNat a b
  List.zipWith (fun (lo hi : Nat) => coeff ((lo : Int) - hi) q) (acc.take n) (acc.drop n)

/-- The coefficients of k · a, k unsigned (R87). -/
def smulCoeffs (q k : Word) (a : List Word) : List Word :=
  a.map fun x => coeff ((x.toNat : Int) * k.toNat) q

/-- The rounding of one coefficient: 0 when strictly closer to 0 than to half(q), else half(q) (R88). -/
def signalCoeff (q x : Word) : Word :=
  let h := half q.toNat
  if cdist x.toNat 0 q.toNat < cdist x.toNat h q.toNat then 0 else BitVec.ofNat 64 h

/-- ADD Pd, Pa, Pb (R82). -/
def execAdd (rd ra rb : Reg) (s : State) : Result :=
  withSources (encode (.add rd ra rb)) ra rb s fun a b => complete rd ⟨a.n, a.q, addCoeffs a.q a.c b.c⟩ s

/-- SUB Pd, Pa, Pb (R83). -/
def execSub (rd ra rb : Reg) (s : State) : Result :=
  withSources (encode (.sub rd ra rb)) ra rb s fun a b => complete rd ⟨a.n, a.q, subCoeffs a.q a.c b.c⟩ s

/-- NEG Pd, Pa (R84). -/
def execNeg (rd ra : Reg) (s : State) : Result :=
  withSource (encode (.neg rd ra)) ra s fun a => complete rd ⟨a.n, a.q, negCoeffs a.q a.c⟩ s

/-- MUL Pd, Pa, Pb (R86). -/
def execMul (rd ra rb : Reg) (s : State) : Result :=
  withSources (encode (.mul rd ra rb)) ra rb s fun a b =>
    complete rd ⟨a.n, a.q, mulCoeffs a.n.toNat a.q a.c b.c⟩ s

/-- SMUL Pd, Pa, by K (R87). -/
def execSmul (rd ra : Reg) (s : State) : Result :=
  withSource (encode (.smul rd ra)) ra s fun a => complete rd ⟨a.n, a.q, smulCoeffs a.q s.k a.c⟩ s

/-- SIGNAL Pd, Pa (R88). -/
def execSignal (rd ra : Reg) (s : State) : Result :=
  withSource (encode (.signal rd ra)) ra s fun a => complete rd ⟨a.n, a.q, a.c.map (signalCoeff a.q)⟩ s

end Sys2Proof.Machine
end

