-- ==== Sys2Proof/Machine/Configure.lean ====
section
/-! DEFINITION. SETN, SETQ, SETK, SETSIG (44_config_control.md R127 to R130). -/

namespace Sys2Proof.Machine

/-- A dimension SETN accepts: not 0, not above N_MAX, `imm & (imm − 1) = 0` (R127). -/
def legalDimension (nMax : Nat) (imm : Imm) : Bool :=
  imm != 0 && imm &&& (imm - 1) == 0 && decide (imm.toNat ≤ nMax)

/-- A modulus SETQ accepts: 2 ≤ u64(w) ≤ 2^63 − 1 (R128). -/
def legalModulus (w : Word) : Bool := decide (2 ≤ w.toNat) && decide (w.toNat ≤ 2 ^ 63 - 1)

/-- SETN n (R127). -/
def execSetn (imm : Imm) (s : State) : Result :=
  if legalDimension s.params.nMax imm then .next { s with ringN := imm }.finish
  else .next (s.raise .configError (encode (.setn imm)))

/-- SETQ: the word is consumed in every case (R128). -/
def execSetq (s : State) : Result :=
  match s.din with
  | [] => .next (s.hold (encode .setq))
  | w :: rest =>
    if legalModulus w then .next { s with din := rest, ringQ := w }.finish
    else .next ({ s with din := rest }.raise .configError (encode .setq))

/-- SETK (R129). -/
def execSetk (s : State) : Result :=
  match s.din with
  | [] => .next (s.hold (encode .setk))
  | w :: rest => .next { s with din := rest, k := w }.finish

/-- SETSIG s (R130). -/
def execSetsig (imm : Imm) (s : State) : Result := .next { s with sigma := imm }.finish

end Sys2Proof.Machine
end

