-- ==== Sys2Proof/Machine/Control.lean ====
section
/-! DEFINITION. NOP and CLRF (44_config_control.md R125, R126). -/

namespace Sys2Proof.Machine

/-- NOP changes no state (R125). -/
def execNop (s : State) : Result := .next s.finish

/-- CLRF clears FAULT, CAUSE and FCMD and empties DIN, whether FAULT was 1 or 0 (R126). -/
def execClrf (s : State) : Result := .next s.acknowledge.finish

end Sys2Proof.Machine
end

