-- ==== Sys2Proof/Machine/Encoder.lean ====
section
/-! DEFINITION. ENCH and ENCR (43_encoder.md R115 to R119). -/

namespace Sys2Proof.Machine

/-- The message, or the stop for a state in which MSGBUF lacks one of its bytes (log 8). -/
def withMessage (s : State) (body : List Byte → Result) : Result :=
  match s.message with
  | none => .fault .messageByteAbsent
  | some m => body m

/-- The digest bits of `ceil(n / 256)` blocks, block counter from 0, each block `HASH(ctr_bytes(ctr) ∥ M)`, most
significant bit first, byte by byte (R116). -/
def blockBits (h : List Byte → Config.Digest) (e : Config.Endian) (n : Nat) (m : List Byte) : List Bool :=
  (List.range ((n + 255) / 256)).flatMap fun ctr =>
    msbBits (h (counterBytes e (BitVec.ofNat 32 ctr) ++ m)).toList

/-- The coefficients of ENCH: bit 1 gives half(q), bit 0 gives 0; surplus bits discarded (R116). -/
def enchCoeffs (h : List Byte → Config.Digest) (e : Config.Endian) (n : Nat) (q : Word) (m : List Byte) : List Word :=
  ((blockBits h e n m).take n).map fun b => if b then BitVec.ofNat 64 (half q.toNat) else 0

/-- The coefficients of ENCR: the message bits themselves, then zeros; surplus bits dropped (R119). -/
def encrCoeffs (n : Nat) (m : List Byte) : List Word :=
  ((msbBits m ++ List.replicate n false).take n).map fun b => if b then 1 else 0

/-- ENCH Pd with a given HASH; it holds while the hash port does not answer (R116, R179). -/
def enchWith (h : List Byte → Config.Digest) (rd : Reg) (s : State) : Result :=
  withRing (encode (.ench rd)) s fun n q =>
    if s.hashWaits then .next (s.hold (encode (.ench rd)))
    else withMessage s fun m => complete rd ⟨n, q, enchCoeffs h s.params.ctrEndian n.toNat q m⟩ s

/-- ENCH Pd (R116). -/
def execEnch (rd : Reg) (s : State) : Result := enchWith Config.hash rd s

/-- ENCR Pd (R119). -/
def execEncr (rd : Reg) (s : State) : Result :=
  withRing (encode (.encr rd)) s fun n q =>
    if n.toNat < 8 * s.msgLen.toNat ∧ s.params.encrOverlen = .fault then .next (s.raise .messageTooLong (encode (.encr rd)))
    else withMessage s fun m => complete rd ⟨n, q, encrCoeffs n.toNat m⟩ s

end Sys2Proof.Machine
end

