-- ==== Sys2Proof/Machine/Sampler.lean ====
section
/-! DEFINITION. SAMPU and SAMPG (42_sampler.md R100 to R109). -/

namespace Sys2Proof.Machine

/-- What drawing from the entropy port comes to: a value, with the answers not yet used; a fault; or no answer yet. -/
inductive Draw (α : Type) where
  | got (x : α) (rest : List EntropyAnswer)
  | fails (why : Cause) (rest : List EntropyAnswer)
  | waits
  deriving DecidableEq, Repr

/-- Go on with the value drawn and the answers that remain. -/
def Draw.andThen {α β : Type} (d : Draw α) (body : α → List EntropyAnswer → Draw β) : Draw β :=
  match d with
  | .got x rest => body x rest
  | .fails why rest => .fails why rest
  | .waits => .waits

/-- `EntropyWord()`: the next word, or ENTROPY_UNAVAILABLE; never retried (R37). -/
def entropyWord : List EntropyAnswer → Draw Word
  | [] => .waits
  | .failure :: rest => .fails .entropyUnavailable rest
  | .word w :: rest => .got w rest

/-- One coefficient of SAMPU: the low b bits of each word, rejected while not below q, at most `limit` times; `rejects`
counts those rejected so far (R101). -/
def drawBelow (q b limit : Nat) : Nat → List EntropyAnswer → Draw Word
  | _, [] => .waits
  | _, .failure :: rest => .fails .entropyUnavailable rest
  | rejects, .word w :: rest =>
    let v := w.toNat % 2 ^ b
    if v < q then .got (BitVec.ofNat 64 v) rest
    else if rejects + 1 = limit then .fails .samplerExhausted rest
    else drawBelow q b limit (rejects + 1) rest

/-- One coefficient of SAMPG: w1, then w2, then fmod(GAUSS(w1, w2, sg), q) (R104). -/
def drawGauss (g : Word → Word → Imm → Int) (q : Word) (sg : Imm) (ent : List EntropyAnswer) : Draw Word :=
  (entropyWord ent).andThen fun w1 ent => (entropyWord ent).andThen fun w2 ent => .got (coeff (g w1 w2 sg) q) ent

/-- n draws of one kind, index 0 first (R100). -/
def drawMany {α : Type} (one : List EntropyAnswer → Draw α) : Nat → List EntropyAnswer → Draw (List α)
  | 0, ent => .got [] ent
  | n + 1, ent => (one ent).andThen fun x ent => (drawMany one n ent).andThen fun xs ent => .got (x :: xs) ent

/-- What both samplers do with their draws: write `rd` only after the last, fault with the words drawn lost and `rd`
unchanged, or hold (R100, R145, R179). -/
def finishDraw (cmd : Cmd) (rd : Reg) (n : Imm) (q : Word) (s : State) (d : Draw (List Word)) : Result :=
  match d with
  | .got c rest => complete rd ⟨n, q, c⟩ (s.setEnt rest)
  | .fails why rest => .next ((s.setEnt rest).raise why cmd)
  | .waits => .next (s.hold cmd)

/-- SAMPU Pd (R101). -/
def execSampu (rd : Reg) (s : State) : Result :=
  withRing (encode (.sampu rd)) s fun n q =>
    finishDraw (encode (.sampu rd)) rd n q s
      (drawMany (drawBelow q.toNat (bitlen (q.toNat - 1)) s.params.rejectLimit 0) n.toNat s.ent)

/-- SAMPG Pd with a given GAUSS (R104, R106). -/
def sampgWith (g : Word → Word → Imm → Int) (rd : Reg) (s : State) : Result :=
  withRing (encode (.sampg rd)) s fun n q => finishDraw (encode (.sampg rd)) rd n q s (drawMany (drawGauss g q s.sigma) n.toNat s.ent)

/-- SAMPG Pd (R104). -/
def execSampg (rd : Reg) (s : State) : Result := sampgWith Config.gauss rd s

end Sys2Proof.Machine
end

