-- ==== Sys2Proof/Machine/Transfer.lean ====
section
/-! DEFINITION. ZERO, LOAD, STORE, SER, LDMSG (40_element_transfer.md R70 to R76). -/

namespace Sys2Proof.Machine

/-- ZERO Pd: the zero element of the configured ring (R71). -/
def execZero (rd : Reg) (s : State) : Result :=
  withRing (encode (.zero rd)) s fun n q => complete rd ⟨n, q, List.replicate n.toNat 0⟩ s

/-- LOAD Pd, count: n words from DIN, each read as signed and reduced (R72). -/
def execLoad (rd : Reg) (imm : Imm) (s : State) : Result :=
  withRing (encode (.load rd imm)) s fun n q =>
    if imm ≠ n then .next (s.raise .sizeMismatch (encode (.load rd imm)))
    else withDin (encode (.load rd imm)) n.toNat s fun ws s' => complete rd ⟨n, q, ws.map fun w => coeff w.toInt q⟩ s'

/-- STORE Pa: the coefficients to DOUT (R73). -/
def execStore (ra : Reg) (s : State) : Result :=
  withSource (encode (.store ra)) ra s fun a => .next (s.pushDout a.c).finish

/-- SER Pa: dimension, modulus and coefficients to DOUT (R74). -/
def execSer (ra : Reg) (s : State) : Result :=
  withSource (encode (.ser ra)) ra s fun a => .next (s.pushDout (serWords a)).finish

/-- LDMSG len: the message from DIN into MSGBUF (R75). -/
def execLdmsg (imm : Imm) (s : State) : Result :=
  if s.params.msgMax < imm.toNat then .next (s.raise .messageTooLong (encode (.ldmsg imm)))
  else withDin (encode (.ldmsg imm)) (messageWords imm.toNat) s fun ws s' =>
    .next (s'.setMessage (unpackBytes imm.toNat ws)).finish

end Sys2Proof.Machine
end

