-- ==== Sys2Proof/Machine/Dispatch.lean ====
section
/-! DEFINITION. The one match from commands to meanings, an arm per row of the opcode map (30_encoding.md R54). -/

namespace Sys2Proof.Machine

def exec (i : Instr) (s : State) : Host.Outcome State Fault Refusal :=
  match i with
  | .nop => Sys2Proof.Machine.execNop s
  | .clrf => Sys2Proof.Machine.execClrf s
  | .setn imm => Sys2Proof.Machine.execSetn imm s
  | .setq => Sys2Proof.Machine.execSetq s
  | .setk => Sys2Proof.Machine.execSetk s
  | .setsig imm => Sys2Proof.Machine.execSetsig imm s
  | .zero rd => Sys2Proof.Machine.execZero rd s
  | .load rd imm => Sys2Proof.Machine.execLoad rd imm s
  | .store ra => Sys2Proof.Machine.execStore ra s
  | .ser ra => Sys2Proof.Machine.execSer ra s
  | .ldmsg imm => Sys2Proof.Machine.execLdmsg imm s
  | .add rd ra rb => Sys2Proof.Machine.execAdd rd ra rb s
  | .sub rd ra rb => Sys2Proof.Machine.execSub rd ra rb s
  | .neg rd ra => Sys2Proof.Machine.execNeg rd ra s
  | .mul rd ra rb => Sys2Proof.Machine.execMul rd ra rb s
  | .smul rd ra => Sys2Proof.Machine.execSmul rd ra s
  | .signal rd ra => Sys2Proof.Machine.execSignal rd ra s
  | .sampu rd => Sys2Proof.Machine.execSampu rd s
  | .sampg rd => Sys2Proof.Machine.execSampg rd s
  | .ench rd => Sys2Proof.Machine.execEnch rd s
  | .encr rd => Sys2Proof.Machine.execEncr rd s

end Sys2Proof.Machine
end

