-- ==== Sys2Proof/Machine/Engine.lean ====
section
/-! DEFINITION. How the engine takes and runs commands (20_memory.md R32, R42; 60_exceptions.md R144, R147), and its reset
(70_reset_and_hazards.md R170, R171). -/

namespace Sys2Proof.Machine

/-- The one word that runs while FAULT = 1 (R147). -/
def clrfWord : Cmd := 0x02000000#32

/-- Run the command word `w`, first try or again after a hold: discarded undecoded while FAULT = 1 unless it is CLRF
(R147), ILLEGAL_COMMAND when it matches no row of R54 (R144, R55), else the command's meaning. -/
def runCommand (w : Cmd) (s : State) : Result :=
  if s.fault = true ∧ w ≠ clrfWord then .next s.finish
  else
    match decode w with
    | .illegal _ => .next (s.raise .illegalCommand w)
    | .instr i => exec i s

/-- Reset: every item of R26 at its value, a command in progress abandoned, pending requests dropped (R170, R171). The
parameters stay, and so do what the host still offers at the CMD port, which was not taken, and whether the hash port
answers, which is not the engine's to change (log 6). -/
def State.afterReset (s : State) : State :=
  { State.resetWith s.params with cmdIn := s.cmdIn, hashWaits := s.hashWaits }

/-- One step: the reset when `rst` is asserted; else the command in progress again; else the next command the host
offers; else nothing, an idle engine keeps all its state (R155, R170; log 5, log 10). -/
def engineStep (s : State) : Result :=
  if s.rstIn then .next s.afterReset
  else
    match s.cur, s.cmdIn with
    | some w, _ => runCommand w s
    | none, [] => .next s
    | none, w :: rest => runCommand w { s with cur := some w, cmdIn := rest }

/-- Put a command word at the head of the CMD port, with no command in progress and no reset before it. -/
def State.offerFirst (w : Cmd) (s : State) : State :=
  { s with cur := none, rstIn := false, cmdIn := w :: s.cmdIn }

end Sys2Proof.Machine
end

