-- ==== Sys2Proof/Machine/Step.lean ====
section
/-! DEFINITION. The machine's step, and the state whose next step runs a given command. -/

namespace Sys2Proof.Machine

/-- One step of the engine (20_memory.md R42). -/
def step (s : State) : Host.Outcome State Fault Refusal := engineStep s

/-- `s` with the command of the given bits at the head of the CMD port, which is where the engine takes its next command
(R32; there is no program counter, R15): the command in progress and a pending reset are removed, since `step` would go
on with those first (log 10). -/
def State.withFetchWord (s : State) (nbits w : Nat) : State :=
  s.offerFirst (BitVec.ofNat 32 (w % 2 ^ nbits))

end Sys2Proof.Machine
end

