-- ==== Sys2Proof/Machine/Ports.lean ====
section
/-! DEFINITION. What the host and the outside ports can do to the machine between steps (20_memory.md R32 to R40, R46). What is
not listed here, they cannot do. -/

namespace Sys2Proof.Machine

/-- The host offers a command; it is taken after those offered before it (R32). One offered while `rst` is asserted is not
taken by the reset step and stays offered (R171, log 6). -/
def State.offerCommand (w : Cmd) (s : State) : State := { s with cmdIn := s.cmdIn ++ [w] }

/-- The host pushes a word to the tail of DIN, at any time (R33). DESIGN CHOICE (log 6): a word offered while `rst` is
asserted is appended too, and the reset step that follows discards it with the rest of DIN, so no command takes it
(R171 says only "not taken"); a host that still offers it pushes it again after the reset. -/
def State.pushDin (w : Word) (s : State) : State := { s with din := s.din ++ [w] }

/-- The host pops the oldest word of DOUT; the word is removed (R34). -/
def State.popDout (s : State) : Option (Word × State) :=
  match s.dout with
  | [] => none
  | w :: rest => some (w, { s with dout := rest })

/-- The entropy port has an answer for the request after those already answered (R37). -/
def State.answerEntropy (a : EntropyAnswer) (s : State) : State := { s with ent := s.ent ++ [a] }

/-- The hash port answers, or does not at present (R179). -/
def State.setHashWaits (b : Bool) (s : State) : State := { s with hashWaits := b }

/-- The host asserts `rst`; the next step is the reset (R39, R170). -/
def State.assertReset (s : State) : State := { s with rstIn := true }

end Sys2Proof.Machine
end

