-- ==== Sys2Proof/Machine/Run.lean ====
section
/-! DEFINITION. A host program and its run (70_reset_and_hazards.md R180): the commands the host offers, the words it pushes and
the words it pops (20_memory.md R46), and the moves of the host, the engine, the entropy port and the hash port. -/

namespace Sys2Proof.Machine

/-- What a host program says the host does: offer a command, push a word to DIN, pop a word from DOUT (R46, and the
listings of 30_encoding.md R57). -/
inductive HostAction where
  | offer (w : Cmd)
  | push (w : Word)
  | pop
  deriving DecidableEq, Repr

/-- The action is a push to DIN. -/
def HostAction.isPush : HostAction → Bool
  | .offer _ => false
  | .push _ => true
  | .pop => false

/-- A run in progress: what the host has still to do, the words it has popped, oldest first, and the engine. -/
structure Run where
  todo : List HostAction
  popped : List Word
  engine : State
  deriving DecidableEq, Repr

/-- The run of a host program from the engine state `s`, nothing done yet. -/
def Run.start (program : List HostAction) (s : State) : Run := { todo := program, popped := [], engine := s }

/-- One host action: the words it pops and the state it leaves; `none` when the host must wait for a word in DOUT
(R34). -/
def State.hostAct (s : State) : HostAction → Option (List Word × State)
  | .offer w => some ([], s.offerCommand w)
  | .push w => some ([], s.pushDin w)
  | .pop => s.popDout.map fun x => ([x.1], x.2)

/-- The host does its next action; `none` when it has none left or must wait. -/
def Run.hostMove (r : Run) : Option Run :=
  match r.todo with
  | [] => none
  | a :: rest => (r.engine.hostAct a).map fun x => { todo := rest, popped := r.popped ++ x.1, engine := x.2 }

/-- The host leaves its next action undone: a push, while FAULT = 1, when it must stop pushing (70_reset_and_hazards.md R175);
`none` otherwise (log 14). -/
def Run.skipMove (r : Run) : Option Run :=
  match r.todo with
  | [] => none
  | a :: rest => if a.isPush && r.engine.fault then some { r with todo := rest } else none

/-- The engine takes one step; `none` when it stops. -/
def Run.engineMove (r : Run) : Option Run :=
  match step r.engine with
  | .next t => some { r with engine := t }
  | _ => none

/-- Who moves next: the host, doing its next action or leaving a push undone after a fault, the engine, the entropy port with an answer (R37), the hash port (R38, R179). -/
inductive Mover where
  | host
  | skip
  | engine
  | entropy (a : EntropyAnswer)
  | hash (waits : Bool)
  deriving DecidableEq, Repr

/-- One move of a run. -/
def Run.move (r : Run) : Mover → Option Run
  | .host => r.hostMove
  | .skip => r.skipMove
  | .engine => r.engineMove
  | .entropy a => some { r with engine := r.engine.answerEntropy a }
  | .hash waits => some { r with engine := r.engine.setHashWaits waits }

/-- The moves of a list, in order. Any interleaving is a list; nothing is assumed of who moves when (R33, log 14). -/
def Run.moves (r : Run) : List Mover → Option Run
  | [] => some r
  | m :: ms => (r.move m).bind fun r' => Run.moves r' ms

end Sys2Proof.Machine
end

