-- ==== Sys2Proof/Safety.lean ====
section
/-! DEFINITION. What counts as a good state and a good end of a run: the invariant of a valid register (10_state.md R11, R12),
the legal values of the control and status registers (R16, R17, R20, R21), the end of a run (70_reset_and_hazards.md R180). -/

namespace Sys2Proof.Machine

/-- What a valid register's element is: n a power of two in 1..N_MAX, q in 2..2^63 − 1, n coefficients, each below q
(R11, R12). -/
abbrev Element.WF (nMax : Nat) (e : Element) : Prop :=
  legalDimension nMax e.n = true ∧ legalModulus e.q = true ∧ e.c.length = e.n.toNat ∧
    ∀ x ∈ e.c, x.toNat < e.q.toNat

/-- The invariant of the engine's state. -/
structure State.Inv (s : State) : Prop where
  /-- The parameters are in the ranges of R3. -/
  params : s.params.wellFormed = true
  /-- Every valid register holds a legal element (R11, R12). -/
  regs : ∀ r e, s.readReg r = some e → e.WF s.params.nMax
  /-- RING_N is 0 or legal (R16). -/
  ringN : s.ringN = 0 ∨ legalDimension s.params.nMax s.ringN = true
  /-- RING_Q is 0 or legal (R17). -/
  ringQ : s.ringQ = 0 ∨ legalModulus s.ringQ = true
  /-- MSG_LEN is at most MSG_MAX (R20). -/
  msgFits : s.msgLen.toNat ≤ s.params.msgMax
  /-- MSGBUF keeps its canonical form. -/
  msgbuf : s.msgbuf.wf = true
  /-- MSGBUF holds exactly the bytes below MSG_LEN (R20). -/
  msgHeld : ∀ a, (s.msgbuf.read a).isSome = true ↔ a < s.msgLen.toNat
  /-- With FAULT = 0, CAUSE = 0 and FCMD = 0 (R21). -/
  noFault : s.fault = false → s.cause = .none ∧ s.fcmd = 0
  /-- With FAULT = 1, CAUSE is a cause (R21, R141). -/
  inFault : s.fault = true → s.cause ≠ .none
  /-- A command in progress is a legal word that was taken with FAULT = 0 (R147). -/
  inProgress : ∀ w, s.cur = some w → s.fault = false ∧ ∃ i, decode w = .instr i

/-- The word the next step runs, if no reset comes first: the command in progress, else the one at the head of the CMD
port (20_memory.md R32). -/
def State.nextWord (s : State) : Option Cmd :=
  match s.cur with
  | some w => some w
  | none => s.cmdIn.head?

/-- The run is over (R180): the host has offered every command of its program and popped every word it says it pops, so
what it has still to do is pushes only, which R180 does not ask for; the engine has consumed every command; BUSY = 0. A run
in which a command holds is not over. -/
def Run.over (r : Run) : Prop :=
  (∀ a ∈ r.todo, a.isPush = true) ∧ r.engine.cmdIn = [] ∧ r.engine.busy = false

/-- A good end: the run is over, FAULT = 0 and DIN is empty (R180). -/
def Run.goodEnd (r : Run) : Prop := r.over ∧ r.engine.fault = false ∧ r.engine.din = []

/-- A faulted run: it is over with FAULT = 1, so the program did not execute past FCMD's command (R180). -/
def Run.faultedEnd (r : Run) : Prop := r.over ∧ r.engine.fault = true

/-- The register a command writes, if any (R14). -/
def destination : Instr → Option Reg
  | .nop => none
  | .clrf => none
  | .setn _ => none
  | .setq => none
  | .setk => none
  | .setsig _ => none
  | .zero rd => some rd
  | .load rd _ => some rd
  | .store _ => none
  | .ser _ => none
  | .ldmsg _ => none
  | .add rd _ _ => some rd
  | .sub rd _ _ => some rd
  | .neg rd _ => some rd
  | .mul rd _ _ => some rd
  | .smul rd _ => some rd
  | .signal rd _ => some rd
  | .sampu rd => some rd
  | .sampg rd => some rd
  | .ench rd => some rd
  | .encr rd => some rd

/-- The causes a command can raise (R141). -/
def causesOf : Instr → List Cause
  | .nop => []
  | .clrf => []
  | .setn _ => [.configError]
  | .setq => [.configError]
  | .setk => []
  | .setsig _ => []
  | .zero _ => [.configError]
  | .load _ _ => [.configError, .sizeMismatch]
  | .store _ => [.uninitOperand]
  | .ser _ => [.uninitOperand]
  | .ldmsg _ => [.messageTooLong]
  | .add _ _ _ => [.uninitOperand, .dimensionMismatch]
  | .sub _ _ _ => [.uninitOperand, .dimensionMismatch]
  | .neg _ _ => [.uninitOperand]
  | .mul _ _ _ => [.uninitOperand, .dimensionMismatch]
  | .smul _ _ => [.uninitOperand]
  | .signal _ _ => [.uninitOperand]
  | .sampu _ => [.configError, .entropyUnavailable, .samplerExhausted]
  | .sampg _ => [.configError, .entropyUnavailable]
  | .ench _ => [.configError]
  | .encr _ => [.configError, .messageTooLong]

end Sys2Proof.Machine
end

