-- ==== Sys2Proof/Certificates/Slice0/Obligations.lean ====
section
/-! DEFINITION. The statements for the provers, in the order of the spec's files. Each docstring cites the rule it formalises.
An instruction's result is stated as an equation whose right side is the whole next state, so it is its frame as well:
a field the record does not name is unchanged. -/

open Sys2Proof Sys2Proof.Machine

-- Numbers -------------------------------------------------------------------------------------------------------

/-- 00_scope.md R4: fmod is the floor remainder, the unique r in [0, q) with q dividing x − r. -/
def Obligations.FmodIsTheFloorRemainder : Prop :=
  (∀ x q : Int, 1 ≤ q → (0 ≤ fmod x q ∧ fmod x q < q ∧ q ∣ x - fmod x q) ∧
    ∀ r, 0 ≤ r → r < q → q ∣ x - r → r = fmod x q) ∧
  fmod (-1) 17 = 16 ∧ fmod 20 17 = 3 ∧ fmod (-20) 17 = 14 ∧ ∀ q, 1 ≤ q → fmod 0 q = 0

/-- 00_scope.md R5: half and the cyclic distance, with the three properties the rule gives. -/
def Obligations.HalfAndCyclicDistance : Prop :=
  (∀ q : Nat, half q = q / 2) ∧ half 17 = 8 ∧
  ∀ a b q : Nat, a < q → b < q →
    cdist a b q = min |(a : Int) - b| (q - |(a : Int) - b|) ∧ cdist a a q = 0 ∧ cdist a b q = cdist b a q ∧
      0 ≤ cdist a b q ∧ cdist a b q ≤ half q

/-- 42_sampler.md R102: bitlen is the least b with x < 2^b, and a candidate of bitlen(q − 1) bits is accepted more than half
the time: q ≤ 2^b < 2q. -/
def Obligations.BitlenIsTheLeastWidth : Prop :=
  (∀ x b : Nat, 1 ≤ x → (x < 2 ^ b ↔ bitlen x ≤ b)) ∧
  ∀ q : Nat, 2 ≤ q → q ≤ 2 ^ bitlen (q - 1) ∧ 2 ^ bitlen (q - 1) < 2 * q

-- Encoding ------------------------------------------------------------------------------------------------------

/-- 30_encoding.md R51, R52, R54, R56: decoding the word of a command gives the command, with every operand at every value
its field admits. -/
def Obligations.DecodeOfEncode : Prop := ∀ i : Instr, decode (encode i) = .instr i

/-- 30_encoding.md R51, R52, R54, R55: each command has one word, so a word that decodes is the word of its command. -/
def Obligations.EncodeOfDecode : Prop := ∀ (w : Cmd) (i : Instr), decode w = .instr i → encode i = w

/-- 30_encoding.md R54, R55, R56: the decoder agrees with the opcode map. A word decodes to a command exactly when it
matches that command's row; a word that matches no row is illegal; no word matches two rows. -/
def Obligations.DecodeFollowsTheOpcodeMap : Prop :=
  ∀ w : Cmd,
    (∀ i, decode w = .instr i → ∃ r ∈ opcodeMap, r.mnemonic = i.mnemonic ∧ r.Matches w) ∧
    (∀ r ∈ opcodeMap, r.Matches w → ∃ i, decode w = .instr i ∧ i.mnemonic = r.mnemonic) ∧
    ∀ r ∈ opcodeMap, ∀ r' ∈ opcodeMap, r.Matches w → r'.Matches w → r = r'

/-- 95_test_vectors.md section 2.1 and 30_encoding.md R57: words the spec writes out decode to what it says. -/
def Obligations.SpecWordsDecode : Prop :=
  decode 0x01000000#32 = .instr .nop ∧ decode 0x10000400#32 = .instr (.setn 1024) ∧
  decode 0x21600008#32 = .instr (.load 3 8) ∧ decode 0x30650000#32 = .instr (.add 3 1 2) ∧
  decode 0x41400000#32 = .instr (.sampg 2) ∧ decode 0x51C00000#32 = .instr (.encr 6) ∧
  decode 0x00000000#32 = .illegal .unassignedOp ∧ decode 0x22200000#32 = .illegal .mustBeZeroSet

-- Reset, steps, faults ------------------------------------------------------------------------------------------

/-- 10_state.md R26: what reset leaves, in the spec's items. -/
def Obligations.ResetLeavesTheTableOfValues : Prop :=
  (∀ r : Reg, State.reset.readReg r = none) ∧ State.reset.ringN = 0 ∧ State.reset.ringQ = 0 ∧ State.reset.k = 0 ∧
  State.reset.sigma = 0x0300 ∧ State.reset.msgLen = 0 ∧ State.reset.fault = false ∧ State.reset.cause.code = 0 ∧
  State.reset.fcmd = 0 ∧ State.reset.busy = false ∧ State.reset.din = [] ∧ State.reset.dout = []

/-- 70_reset_and_hazards.md R170, R171: whatever the engine was doing, a step with `rst` asserted is the reset; a command in
progress is abandoned; no command or data word is taken. -/
def Obligations.ResetInputResets : Prop :=
  ∀ (s : State), s.rstIn = true → ∃ t, step s = .next t ∧
    (∀ r : Reg, t.readReg r = none) ∧ t.ringN = 0 ∧ t.ringQ = 0 ∧ t.k = 0 ∧ t.sigma = 0x0300 ∧ t.msgLen = 0 ∧
    t.fault = false ∧ t.cause = .none ∧ t.fcmd = 0 ∧ t.busy = false ∧ t.din = [] ∧ t.dout = [] ∧
    t.cmdIn = s.cmdIn ∧ t.params = s.params

/-- The invariant (10_state.md R11, R12, R16, R17, R20, R21) holds after reset, for every legal choice of parameters: by R26
(with R13 and 70_reset_and_hazards.md R170) every register is invalid, RING_N, RING_Q and MSG_LEN are 0, FAULT = 0 and
BUSY = 0. The model's choices it rests on: the parameters stand in State (log 1), and no command is in progress at reset,
the field `cur` being empty (log 13; BUSY = 0 forces it). -/
def Obligations.ResetMeetsTheInvariant : Prop :=
  ∀ c : Config.Params, c.wellFormed = true → (State.resetWith c).Inv

/-- The invariant (10_state.md R11, R12, R16, R17, R20, R21) is kept by every step, from every state that meets it. -/
def Obligations.StepKeepsTheInvariant : Prop :=
  ∀ (s t : State), s.Inv → step s = .next t → t.Inv

/-- From every state that meets the invariant a step answers a next state: no command stops the machine
(60_exceptions.md R140, R146: a fault is sticky status, not a stop). -/
def Obligations.StepNeverStops : Prop := ∀ (s : State), s.Inv → ∃ t, step s = .next t

/-- 20_memory.md R32, R42 and 30_encoding.md R56: a step with no reset asserted runs the decoded command. A command the
host offers is taken (it leaves the CMD port, BUSY rises) and its meaning runs; a command in progress runs again. While
FAULT = 1 this is so of CLRF only (60_exceptions.md R147). -/
def Obligations.StepRunsTheDecodedCommand : Prop :=
  ∀ (s : State) w (i : Instr), s.rstIn = false → decode w = .instr i → (s.fault = false ∨ w = 0x02000000#32) →
    (∀ rest, s.cur = none → s.cmdIn = w :: rest → step s = exec i { s with cur := some w, cmdIn := rest }) ∧
    (s.cur = some w → step s = exec i s)

/-- 30_encoding.md R55: a word that matches no row of R54, taken with FAULT = 0, raises ILLEGAL_COMMAND with FCMD the
word; the all-zero and the all-ones word are such words. -/
def Obligations.IllegalWordRaisesIllegalCommand : Prop :=
  (∀ (s : State) w rest, s.rstIn = false → s.cur = none → s.cmdIn = w :: rest → s.fault = false →
    (∀ r ∈ opcodeMap, ¬ r.Matches w) →
    step s = .next { s with cmdIn := rest, fault := true, cause := .illegalCommand, fcmd := w }) ∧
  ∀ r ∈ opcodeMap, ¬ r.Matches 0x00000000#32 ∧ ¬ r.Matches 0xFFFFFFFF#32

/-- 60_exceptions.md R147: while FAULT = 1 every word but CLRF is taken and discarded, legal or not, with no effect at
all. -/
def Obligations.FaultedEngineDiscards : Prop :=
  ∀ (s : State) w rest, s.rstIn = false → s.cur = none → s.cmdIn = w :: rest → s.fault = true → w ≠ 0x02000000#32 →
    step s = .next { s with cmdIn := rest }

/-- 60_exceptions.md R155: an idle engine keeps all its state. -/
def Obligations.IdleEngineKeepsItsState : Prop :=
  ∀ (s : State), s.rstIn = false → s.busy = false → s.cmdIn = [] → step s = .next s

/-- 60_exceptions.md R149, with R126 and R170: faults never nest. After a step from FAULT = 1 either the fault stands with
its first cause and word, or it is gone, all of it, by a reset or by CLRF. -/
def Obligations.FaultsNeverNest : Prop :=
  ∀ (s t : State), s.fault = true → step s = .next t →
    (t.fault = true ∧ t.cause = s.cause ∧ t.fcmd = s.fcmd) ∨
    (t.fault = false ∧ t.cause = .none ∧ t.fcmd = 0 ∧ (s.rstIn = true ∨ s.nextWord = some (encode .clrf)))

/-- 60_exceptions.md R141, R145, R146: a command that raises a fault raises one of the causes listed for it, records
itself in FCMD, lowers BUSY, and leaves no other trace than SETQ's popped word and a sampler's drawn entropy words. -/
def Obligations.FaultingCommandLeavesOnlyItsTraces : Prop :=
  ∀ (i : Instr) (s t : State), s.fault = false → exec i s = .next t → t.fault = true →
    (∃ x ∈ causesOf i,
      t = { s with fault := true, cause := x, fcmd := encode i, cur := none, din := t.din, ent := t.ent }) ∧
    (i ≠ .setq → t.din = s.din) ∧ (i = .setq → ∃ w, s.din = w :: t.din) ∧
    ((∀ rd, i ≠ .sampu rd ∧ i ≠ .sampg rd) → t.ent = s.ent) ∧ t.ent <:+ s.ent

/-- 10_state.md R14: no register but the destination changes, and the destination changes only when the command completes
without a fault. -/
def Obligations.OnlyTheDestinationChanges : Prop :=
  ∀ (i : Instr) (s t : State) (r : Reg), exec i s = .next t → t.readReg r ≠ s.readReg r →
    destination i = some r ∧ t.cur = none ∧ t.fault = s.fault ∧ (∃ e, t.readReg r = some e)

/-- 70_reset_and_hazards.md R178: K, SIGMA, MSG_LEN, MSGBUF, RING_N and RING_Q keep their values from command to command and
across faults and CLRF; a step with no reset asserted changes one of them only when it runs the SET command of that
register, or LDMSG. -/
def Obligations.SettingsAreSticky : Prop :=
  ∀ (s t : State), s.rstIn = false → step s = .next t →
    (t.k = s.k ∨ s.nextWord = some (encode .setk)) ∧
    (t.sigma = s.sigma ∨ ∃ imm, s.nextWord = some (encode (.setsig imm))) ∧
    (t.ringN = s.ringN ∨ ∃ imm, s.nextWord = some (encode (.setn imm))) ∧
    (t.ringQ = s.ringQ ∨ s.nextWord = some (encode .setq)) ∧
    ((t.msgLen = s.msgLen ∧ ∀ a, t.msgbuf.read a = s.msgbuf.read a) ∨
      ∃ imm, s.nextWord = some (encode (.ldmsg imm)))

/-- 00_scope.md R3: the parameters are fixed for the machine; no step changes one (the model carries them in State, log 1). -/
def Obligations.ParametersNeverChange : Prop := ∀ (s t : State), step s = .next t → t.params = s.params

/-- 10_state.md R23, 20_memory.md R34: no step but a reset removes a word from DOUT; a step only appends to it. -/
def Obligations.DoutOnlyGrows : Prop :=
  ∀ (s t : State), s.rstIn = false → step s = .next t → s.dout <+: t.dout

/-- 20_memory.md R32: command words leave the CMD port one at a time, from its head, only while BUSY = 0. -/
def Obligations.CommandsAreTakenInOrder : Prop :=
  ∀ (s t : State), step s = .next t →
    t.cmdIn = s.cmdIn ∨ (s.busy = false ∧ ∃ w, s.cmdIn = w :: t.cmdIn)

/-- 20_memory.md R33, R37 and 70_reset_and_hazards.md R179: a command that is not over after a step has changed nothing but
BUSY, and is one of the seven that wait for DIN, the entropy port or the hash port. That STORE and SER are not among them
is the model's choice of an unbounded DOUT (log 7): on hardware R34, R73 and R179 let them hold while the host does not
drain DOUT. -/
def Obligations.HeldCommandChangesNothing : Prop :=
  ∀ (i : Instr) (s t : State), exec i s = .next t → t.cur ≠ none →
    t = { s with cur := some (encode i) } ∧
      (i = .setq ∨ i = .setk ∨ (∃ imm, i = .ldmsg imm) ∨ ∃ rd, (∃ imm, i = .load rd imm) ∨ i = .sampu rd ∨
        i = .sampg rd ∨ i = .ench rd)

-- Control and configuration -------------------------------------------------------------------------------------

/-- 44_config_control.md R125: NOP completes and changes no state (BUSY falls). -/
def Obligations.NopChangesNothing : Prop := ∀ (s : State), exec .nop s = .next { s with cur := none }

/-- 44_config_control.md R126: CLRF, word 0x02000000, clears FAULT, CAUSE and FCMD and empties DIN, whether FAULT was 1 or 0,
leaves everything else alone, and never faults. -/
def Obligations.ClrfAcknowledges : Prop :=
  encode .clrf = 0x02000000#32 ∧
  ∀ (s : State), exec .clrf s = .next { s with fault := false, cause := .none, fcmd := 0, din := [], cur := none }

/-- 44_config_control.md R127: SETN takes every power of two from 1 to N_MAX and refuses every other immediate with
CONFIG_ERROR, RING_N unchanged. -/
def Obligations.SetnSetsLegalDimensions : Prop :=
  ∀ (s : State) (imm : Imm),
    ((∃ e, imm.toNat = 2 ^ e) ∧ imm.toNat ≤ s.params.nMax →
      exec (.setn imm) s = .next { s with ringN := imm, cur := none }) ∧
    (¬((∃ e, imm.toNat = 2 ^ e) ∧ imm.toNat ≤ s.params.nMax) →
      exec (.setn imm) s =
        .next { s with fault := true, cause := .configError, fcmd := encode (.setn imm), cur := none })

/-- 44_config_control.md R128: SETQ, word 0x11000000, consumes one word in every case, sets RING_Q when it lies in 2..2^63 − 1, and raises
CONFIG_ERROR with RING_Q unchanged when it does not; it holds while DIN is empty (20_memory.md R33). -/
def Obligations.SetqSetsLegalModuli : Prop :=
  encode .setq = 0x11000000#32 ∧
  (∀ (s : State) w rest, s.din = w :: rest → 2 ≤ w.toNat → w.toNat ≤ 2 ^ 63 - 1 →
    exec .setq s = .next { s with din := rest, ringQ := w, cur := none }) ∧
  (∀ (s : State) w rest, s.din = w :: rest → (w.toNat < 2 ∨ 2 ^ 63 - 1 < w.toNat) →
    exec .setq s =
      .next { s with din := rest, fault := true, cause := .configError, fcmd := 0x11000000#32, cur := none }) ∧
  ∀ (s : State), s.din = [] → exec .setq s = .next { s with cur := some 0x11000000#32 }

/-- 44_config_control.md R129, R130: SETK takes any word from DIN into K, and holds while DIN is empty (20_memory.md R33);
SETSIG takes any 16-bit value into SIGMA. -/
def Obligations.SetkAndSetsigTakeAnyValue : Prop :=
  (∀ (s : State) w rest, s.din = w :: rest → exec .setk s = .next { s with din := rest, k := w, cur := none }) ∧
  (∀ (s : State), s.din = [] → exec .setk s = .next { s with cur := some 0x12000000#32 }) ∧
  ∀ (s : State) (imm : Imm), exec (.setsig imm) s = .next { s with sigma := imm, cur := none }

-- Creation and transfer -----------------------------------------------------------------------------------------

/-- 40_element_transfer.md R70: each creation command, when RING_N or RING_Q is not set, raises CONFIG_ERROR and does nothing
else. -/
def Obligations.UnconfiguredCreationFaults : Prop :=
  ∀ (s : State) (rd : Reg) (imm : Imm) (i : Instr), (s.ringN = 0 ∨ s.ringQ = 0) →
    i ∈ [.zero rd, .load rd imm, .sampu rd, .sampg rd, .ench rd, .encr rd] →
    exec i s = .next { s with fault := true, cause := .configError, fcmd := encode i, cur := none }

/-- 40_element_transfer.md R71: ZERO writes the zero element of the configured ring. -/
def Obligations.ZeroWritesTheZeroElement : Prop :=
  ∀ (s : State) (rd : Reg), s.ringN ≠ 0 → s.ringQ ≠ 0 →
    ∃ c : List Word, c.length = s.ringN.toNat ∧ (∀ x ∈ c, x = 0) ∧
      exec (.zero rd) s = .next { s with p := s.p.set rd (some ⟨s.ringN, s.ringQ, c⟩), cur := none }

/-- 40_element_transfer.md R72: LOAD takes n words from DIN, the first into c[0], each read as signed and reduced; the count
must be n. -/
def Obligations.LoadReducesSignedWords : Prop :=
  ∀ (s : State) (rd : Reg), s.ringN ≠ 0 → s.ringQ ≠ 0 → s.ringN.toNat ≤ s.din.length →
    ∃ c : List Word, c.length = s.ringN.toNat ∧
      (∀ j < s.ringN.toNat, ((c.getD j 0).toNat : Int) = fmod (s.din.getD j 0).toInt s.ringQ.toNat) ∧
      exec (.load rd s.ringN) s =
        .next { s with p := s.p.set rd (some ⟨s.ringN, s.ringQ, c⟩), din := s.din.drop s.ringN.toNat, cur := none }

/-- 40_element_transfer.md R72, R75, 20_memory.md R33: LOAD with a count other than RING_N raises SIZE_MISMATCH, LDMSG above
MSG_MAX raises MESSAGE_TOO_LONG, and neither takes a word; otherwise each holds while DIN has fewer words than it
needs. -/
def Obligations.LoadAndLdmsgFaultOrWait : Prop :=
  (∀ (s : State) (rd : Reg) (imm : Imm), s.ringN ≠ 0 → s.ringQ ≠ 0 →
    (imm ≠ s.ringN → exec (.load rd imm) s =
      .next { s with fault := true, cause := .sizeMismatch, fcmd := encode (.load rd imm), cur := none }) ∧
    (imm = s.ringN → s.din.length < s.ringN.toNat →
      exec (.load rd imm) s = .next { s with cur := some (encode (.load rd imm)) })) ∧
  ∀ (s : State) (imm : Imm),
    (s.params.msgMax < imm.toNat → exec (.ldmsg imm) s =
      .next { s with fault := true, cause := .messageTooLong, fcmd := encode (.ldmsg imm), cur := none }) ∧
    (imm.toNat ≤ s.params.msgMax → s.din.length < (imm.toNat + 7) / 8 →
      exec (.ldmsg imm) s = .next { s with cur := some (encode (.ldmsg imm)) })

/-- 40_element_transfer.md R73, R74: STORE pushes the coefficients of the register to DOUT in index order; SER pushes the
dimension, the modulus and then the coefficients. Both use the register's own tag and leave it unchanged. That they
complete in every state with a valid register rests on the model's unbounded DOUT (log 7): on hardware they may hold while
the host does not pop (20_memory.md R34). -/
def Obligations.StoreAndSerPushTheElement : Prop :=
  ∀ (s : State) (ra : Reg) (a : Element), s.readReg ra = some a →
    exec (.store ra) s = .next { s with dout := s.dout ++ a.c, cur := none } ∧
    ∃ nWord : Word, nWord.toNat = a.n.toNat ∧
      exec (.ser ra) s = .next { s with dout := s.dout ++ nWord :: a.q :: a.c, cur := none }

/-- 40_element_transfer.md R76, 20_memory.md R31: toBytes has 8·(n+2) bytes, byte t of word j of SER's words is bits
8t+7..8t of it, and two elements with the same bytes are the same element. -/
def Obligations.SerialisationIsInjective : Prop :=
  (∀ nMax (e : Element), e.WF nMax → (toBytes e).length = 8 * (e.n.toNat + 2) ∧
    ∀ j t, j < e.n.toNat + 2 → t < 8 →
      ((toBytes e).getD (8 * j + t) 0).toNat = ((serWords e).getD j 0).toNat / 2 ^ (8 * t) % 256) ∧
  ∀ e e' : Element, toBytes e = toBytes e' → e = e'

/-- 40_element_transfer.md R75, 20_memory.md R35: LDMSG takes ceil(len/8) words and sets MSG_LEN and the bytes below it, byte
8j+t from bits 8t+7..8t of word j; an index at or beyond the new length holds no value (10_state.md R20; log 8). -/
def Obligations.LdmsgLoadsTheMessage : Prop :=
  ∀ (s : State) (imm : Imm), imm.toNat ≤ s.params.msgMax → (imm.toNat + 7) / 8 ≤ s.din.length →
    ∃ mem : Memory, mem.wf = true ∧
      (∀ j t, t < 8 → 8 * j + t < imm.toNat → ∃ b : Byte, mem.read (8 * j + t) = some b ∧
        b.toNat = (s.din.getD j 0).toNat / 2 ^ (8 * t) % 256) ∧
      (∀ a, imm.toNat ≤ a → mem.read a = none) ∧
      exec (.ldmsg imm) s =
        .next { s with msgLen := imm, msgbuf := mem, din := s.din.drop ((imm.toNat + 7) / 8), cur := none }

-- Ring arithmetic -----------------------------------------------------------------------------------------------

/-- 41_ring_arithmetic.md R80: ADD, SUB and MUL check ra, then rb, then the tags; when the checks pass the result has the
common tag, whatever RING_N and RING_Q are. -/
def Obligations.TwoSourceChecks : Prop :=
  ∀ (s : State) (rd ra rb : Reg) (i : Instr), i ∈ [.add rd ra rb, .sub rd ra rb, .mul rd ra rb] →
    (s.readReg ra = none ∨ s.readReg rb = none → exec i s =
      .next { s with fault := true, cause := .uninitOperand, fcmd := encode i, cur := none }) ∧
    ∀ a b : Element, s.readReg ra = some a → s.readReg rb = some b →
      (a.n ≠ b.n ∨ a.q ≠ b.q → exec i s =
        .next { s with fault := true, cause := .dimensionMismatch, fcmd := encode i, cur := none }) ∧
      (a.n = b.n → a.q = b.q → ∃ c,
        exec i s = .next { s with p := s.p.set rd (some ⟨a.n, a.q, c⟩), cur := none })

/-- 41_ring_arithmetic.md R81, 10_state.md R13: a command with one source faults with UNINIT_OPERAND, and nothing else, when
the register is invalid; NEG, SMUL and SIGNAL give the result the tag of their source. -/
def Obligations.OneSourceChecks : Prop :=
  ∀ (s : State) (rd ra : Reg),
    (∀ i ∈ [.neg rd ra, .smul rd ra, .signal rd ra, .store ra, .ser ra], s.readReg ra = none → exec i s =
      .next { s with fault := true, cause := .uninitOperand, fcmd := encode i, cur := none }) ∧
    ∀ i ∈ [.neg rd ra, .smul rd ra, .signal rd ra], ∀ a, s.readReg ra = some a → ∃ c,
      exec i s = .next { s with p := s.p.set rd (some ⟨a.n, a.q, c⟩), cur := none }

/-- 41_ring_arithmetic.md R82: ADD adds coefficientwise mod q. The sources are read before rd is written (R85). -/
def Obligations.AddAddsCoefficientwise : Prop :=
  ∀ (s : State) (rd ra rb : Reg) (a b : Element), s.Inv → s.readReg ra = some a → s.readReg rb = some b → a.n = b.n → a.q = b.q →
    ∃ c : List Word, c.length = a.n.toNat ∧
      (∀ j < a.n.toNat, ((c.getD j 0).toNat : Int) =
        fmod ((a.c.getD j 0).toNat + (b.c.getD j 0).toNat) a.q.toNat) ∧
      exec (.add rd ra rb) s = .next { s with p := s.p.set rd (some ⟨a.n, a.q, c⟩), cur := none }

/-- 41_ring_arithmetic.md R83: SUB subtracts coefficientwise mod q, ra the minuend. -/
def Obligations.SubSubtractsCoefficientwise : Prop :=
  ∀ (s : State) (rd ra rb : Reg) (a b : Element), s.Inv → s.readReg ra = some a → s.readReg rb = some b → a.n = b.n → a.q = b.q →
    ∃ c : List Word, c.length = a.n.toNat ∧
      (∀ j < a.n.toNat, ((c.getD j 0).toNat : Int) =
        fmod ((a.c.getD j 0).toNat - (b.c.getD j 0).toNat) a.q.toNat) ∧
      exec (.sub rd ra rb) s = .next { s with p := s.p.set rd (some ⟨a.n, a.q, c⟩), cur := none }

/-- 41_ring_arithmetic.md R84: NEG gives 0 for 0 and q − a[j] otherwise, which is fmod(−a[j], q). -/
def Obligations.NegNegatesCoefficientwise : Prop :=
  ∀ (s : State) (rd ra : Reg) (a : Element), s.Inv → s.readReg ra = some a →
    ∃ c : List Word, c.length = a.n.toNat ∧
      (∀ j < a.n.toNat, (c.getD j 0).toNat =
          (if (a.c.getD j 0).toNat = 0 then 0 else a.q.toNat - (a.c.getD j 0).toNat) ∧
        ((c.getD j 0).toNat : Int) = fmod (-(a.c.getD j 0).toNat) a.q.toNat) ∧
      exec (.neg rd ra) s = .next { s with p := s.p.set rd (some ⟨a.n, a.q, c⟩), cur := none }

/-- 41_ring_arithmetic.md R92 with R86: MUL's double-length accumulator comes to the closed form: coefficient k is the sum of
the products with i+j = k less the sum of those with i+j = k+n, reduced. -/
def Obligations.MulIsTheNegacyclicConvolution : Prop :=
  ∀ (s : State) (rd ra rb : Reg) (a b : Element), s.Inv → s.readReg ra = some a → s.readReg rb = some b → a.n = b.n → a.q = b.q →
    ∃ c : List Word, c.length = a.n.toNat ∧
      (∀ k < a.n.toNat, ((c.getD k 0).toNat : Int) =
        fmod ((∑ i ∈ Finset.range a.n.toNat, ∑ j ∈ Finset.range a.n.toNat,
            if i + j = k then ((a.c.getD i 0).toNat : Int) * (b.c.getD j 0).toNat else 0) -
          ∑ i ∈ Finset.range a.n.toNat, ∑ j ∈ Finset.range a.n.toNat,
            if i + j = k + a.n.toNat then ((a.c.getD i 0).toNat : Int) * (b.c.getD j 0).toNat else 0) a.q.toNat) ∧
      exec (.mul rd ra rb) s = .next { s with p := s.p.set rd (some ⟨a.n, a.q, c⟩), cur := none }

/-- 41_ring_arithmetic.md R87: SMUL multiplies by K, unsigned, exactly, then reduces; K is unchanged. -/
def Obligations.SmulScalesByK : Prop :=
  ∀ (s : State) (rd ra : Reg) (a : Element), s.Inv → s.readReg ra = some a →
    ∃ c : List Word, c.length = a.n.toNat ∧
      (∀ j < a.n.toNat, ((c.getD j 0).toNat : Int) = fmod ((a.c.getD j 0).toNat * s.k.toNat) a.q.toNat) ∧
      exec (.smul rd ra) s = .next { s with p := s.p.set rd (some ⟨a.n, a.q, c⟩), cur := none }

/-- 41_ring_arithmetic.md R88: SIGNAL gives 0 when the coefficient is strictly closer to 0 than to half(q), else half(q). -/
def Obligations.SignalRoundsToTheNearer : Prop :=
  ∀ (s : State) (rd ra : Reg) (a : Element), s.Inv → s.readReg ra = some a →
    ∃ c : List Word, c.length = a.n.toNat ∧
      (∀ j < a.n.toNat, (c.getD j 0).toNat =
        if cdist (a.c.getD j 0).toNat 0 a.q.toNat < cdist (a.c.getD j 0).toNat (half a.q.toNat) a.q.toNat then 0
        else half a.q.toNat) ∧
      exec (.signal rd ra) s = .next { s with p := s.p.set rd (some ⟨a.n, a.q, c⟩), cur := none }

/-- 41_ring_arithmetic.md R93: every output coefficient of SIGNAL is 0 or half(q); 0 maps to 0 and half(q) does not. -/
def Obligations.SignalRange : Prop :=
  ∀ (s : State) (rd ra : Reg) (a : Element) (t : State) (e : Element), s.Inv → s.readReg ra = some a → exec (.signal rd ra) s = .next t → t.readReg rd = some e →
    (∀ x ∈ e.c, x.toNat = 0 ∨ x.toNat = half a.q.toNat) ∧
    (∀ j < a.n.toNat, (e.c.getD j 0).toNat = 0 ↔
      cdist (a.c.getD j 0).toNat 0 a.q.toNat < cdist (a.c.getD j 0).toNat (half a.q.toNat) a.q.toNat) ∧
    ∀ j < a.n.toNat, ((a.c.getD j 0).toNat = 0 → (e.c.getD j 0).toNat = 0) ∧
      ((a.c.getD j 0).toNat = half a.q.toNat → (e.c.getD j 0).toNat ≠ 0)

/-- 41_ring_arithmetic.md R90 (a): ADD and MUL are commutative: swapping the sources gives the same next state. -/
def Obligations.AddAndMulCommute : Prop :=
  ∀ (s : State) (rd ra rb : Reg) (a b : Element), s.Inv → s.readReg ra = some a → s.readReg rb = some b → a.n = b.n → a.q = b.q →
    exec (.add rd ra rb) s = exec (.add rd rb ra) s ∧ exec (.mul rd ra rb) s = exec (.mul rd rb ra) s

/-- 41_ring_arithmetic.md R90 (c), 30_encoding.md R58: NEG Pd, Pa and then NEG Pd, Pd copies Pa to Pd (the
pseudo-instruction MOV). -/
def Obligations.NegTwiceCopies : Prop :=
  ∀ (s : State) (rd ra : Reg) (a : Element), s.Inv → s.readReg ra = some a →
    ∃ t, exec (.neg rd ra) s = .next t ∧
      exec (.neg rd rd) t = .next { s with p := s.p.set rd (some a), cur := none }

/-- 41_ring_arithmetic.md R90 (b), (d): f + (−f) is the zero element, and f − g is f + (−g). -/
def Obligations.NegIsTheAdditiveInverse : Prop :=
  (∀ q f, legalModulus q = true → (∀ x ∈ f, x.toNat < q.toNat) → ∀ x ∈ addCoeffs q f (negCoeffs q f), x = 0) ∧
  ∀ q f g, legalModulus q = true → (∀ x ∈ f, x.toNat < q.toNat) → (∀ x ∈ g, x.toNat < q.toNat) →
    subCoeffs q f g = addCoeffs q f (negCoeffs q g)

/-- 41_ring_arithmetic.md R90 (g): SIGNAL is idempotent: applied to its own result it gives that result. -/
def Obligations.SignalIsIdempotent : Prop :=
  ∀ (s : State) (rd ra : Reg) (a : Element), s.Inv → s.readReg ra = some a →
    ∃ t e, exec (.signal rd ra) s = .next t ∧ t.readReg rd = some e ∧
      exec (.signal rd rd) t = .next t

/-- 41_ring_arithmetic.md R90 (e): MUL distributes over ADD: for elements of one tag, a·(b + c) = a·b + a·c. -/
def Obligations.MulDistributesOverAdd : Prop :=
  ∀ nMax (a b c : Element), a.WF nMax → b.WF nMax → c.WF nMax → b.n = a.n → c.n = a.n → b.q = a.q → c.q = a.q →
    mulCoeffs a.n.toNat a.q a.c (addCoeffs a.q b.c c.c) =
      addCoeffs a.q (mulCoeffs a.n.toNat a.q a.c b.c) (mulCoeffs a.n.toNat a.q a.c c.c)

-- Sampler -------------------------------------------------------------------------------------------------------

/-- 42_sampler.md R101: SAMPU completes when, for each coefficient, fewer than REJECT_LIMIT words are rejected (low b bits not
below q, b = bitlen(q − 1)) before one is accepted: coefficient j is the accepted word's low b bits. `draws` lists, per
coefficient, the words rejected and the word accepted; the answers after them are left at the port. -/
def Obligations.SampuTakesTheAcceptedWords : Prop :=
  ∀ (s : State) (rd : Reg) (draws : List (List Word × Word)) rest, s.Inv → s.ringN ≠ 0 → s.ringQ ≠ 0 →
    draws.length = s.ringN.toNat →
    (∀ d ∈ draws, d.1.length < s.params.rejectLimit ∧
      (∀ w ∈ d.1, s.ringQ.toNat ≤ w.toNat % 2 ^ bitlen (s.ringQ.toNat - 1)) ∧
      d.2.toNat % 2 ^ bitlen (s.ringQ.toNat - 1) < s.ringQ.toNat) →
    s.ent = (draws.flatMap fun d => (d.1 ++ [d.2]).map .word) ++ rest →
    ∃ c : List Word, c.length = s.ringN.toNat ∧
      (∀ j < s.ringN.toNat, (c.getD j 0).toNat = (draws.getD j ([], 0)).2.toNat % 2 ^ bitlen (s.ringQ.toNat - 1)) ∧
      exec (.sampu rd) s =
        .next { s with p := s.p.set rd (some ⟨s.ringN, s.ringQ, c⟩), ent := rest, cur := none }

/-- 42_sampler.md R100, R101: when the draws of the next coefficient end in a failure answer SAMPU raises
ENTROPY_UNAVAILABLE; when REJECT_LIMIT words in a row are rejected it raises SAMPLER_EXHAUSTED; when the port has no
further answer it holds (70_reset_and_hazards.md R179). On a fault rd is unchanged and the words drawn are lost. -/
def Obligations.SampuFaultsOrWaits : Prop :=
  ∀ (s : State) (rd : Reg) (draws : List (List Word × Word)) (rejected : List Word) rest, s.Inv → s.ringN ≠ 0 → s.ringQ ≠ 0 →
    draws.length < s.ringN.toNat →
    (∀ d ∈ draws, d.1.length < s.params.rejectLimit ∧
      (∀ w ∈ d.1, s.ringQ.toNat ≤ w.toNat % 2 ^ bitlen (s.ringQ.toNat - 1)) ∧
      d.2.toNat % 2 ^ bitlen (s.ringQ.toNat - 1) < s.ringQ.toNat) →
    (∀ w ∈ rejected, s.ringQ.toNat ≤ w.toNat % 2 ^ bitlen (s.ringQ.toNat - 1)) →
    (rejected.length < s.params.rejectLimit →
      s.ent = (draws.flatMap fun d => (d.1 ++ [d.2]).map .word) ++ rejected.map .word ++ .failure :: rest →
      exec (.sampu rd) s = .next { s with
        ent := rest, fault := true, cause := .entropyUnavailable, fcmd := encode (.sampu rd), cur := none }) ∧
    (rejected.length = s.params.rejectLimit →
      s.ent = (draws.flatMap fun d => (d.1 ++ [d.2]).map .word) ++ rejected.map .word ++ rest →
      exec (.sampu rd) s = .next { s with
        ent := rest, fault := true, cause := .samplerExhausted, fcmd := encode (.sampu rd), cur := none }) ∧
    (rejected.length < s.params.rejectLimit →
      s.ent = (draws.flatMap fun d => (d.1 ++ [d.2]).map .word) ++ rejected.map .word →
      exec (.sampu rd) s = .next { s with cur := some (encode (.sampu rd)) })

/-- 42_sampler.md R103: every target sequence in [0, q) is the result of SAMPU under some answers of the entropy port, and
under others it faults, with ENTROPY_UNAVAILABLE or with SAMPLER_EXHAUSTED. The last is stated where q is no power of two:
otherwise no word is rejected (R101). -/
def Obligations.SampuReachesEveryElement : Prop :=
  ∀ (s : State) (rd : Reg), s.Inv → s.ringN ≠ 0 → s.ringQ ≠ 0 →
    (∀ c : List Word, c.length = s.ringN.toNat → (∀ x ∈ c, x.toNat < s.ringQ.toNat) →
      ∃ ent, exec (.sampu rd) { s with ent := ent } =
        .next { s with p := s.p.set rd (some ⟨s.ringN, s.ringQ, c⟩), ent := [], cur := none }) ∧
    (∃ ent, exec (.sampu rd) { s with ent := ent } = .next { s with
      ent := [], fault := true, cause := .entropyUnavailable, fcmd := encode (.sampu rd), cur := none }) ∧
    ((∀ e, s.ringQ.toNat ≠ 2 ^ e) → ∃ ent, exec (.sampu rd) { s with ent := ent } = .next { s with
      ent := [], fault := true, cause := .samplerExhausted, fcmd := encode (.sampu rd), cur := none })

/-- 42_sampler.md R104: SAMPG draws two words per coefficient, w1 then w2, coefficient 0 first, and writes
fmod(GAUSS(w1, w2, SIGMA), q); SIGMA is unchanged. GAUSS is Config.gauss, of which nothing is assumed (R106, log 9). -/
def Obligations.SampgReducesGauss : Prop :=
  ∀ (s : State) (rd : Reg) (pairs : List (Word × Word)) rest, s.ringN ≠ 0 → s.ringQ ≠ 0 → pairs.length = s.ringN.toNat →
    s.ent = (pairs.flatMap fun d => [.word d.1, .word d.2]) ++ rest →
    ∃ c : List Word, c.length = s.ringN.toNat ∧
      (∀ j < s.ringN.toNat, ((c.getD j 0).toNat : Int) =
        fmod (Config.gauss (pairs.getD j (0, 0)).1 (pairs.getD j (0, 0)).2 s.sigma) s.ringQ.toNat) ∧
      exec (.sampg rd) s =
        .next { s with p := s.p.set rd (some ⟨s.ringN, s.ringQ, c⟩), ent := rest, cur := none }

/-- 42_sampler.md R100, R104, R109: SAMPG raises ENTROPY_UNAVAILABLE at the first failure answer among its 2n requests, rd
unchanged and the words drawn lost; it holds when the port has no further answer. -/
def Obligations.SampgFaultsOrWaits : Prop :=
  ∀ (s : State) (rd : Reg) (ws : List Word) rest, s.ringN ≠ 0 → s.ringQ ≠ 0 → ws.length < 2 * s.ringN.toNat →
    (s.ent = ws.map .word ++ .failure :: rest → exec (.sampg rd) s = .next { s with
      ent := rest, fault := true, cause := .entropyUnavailable, fcmd := encode (.sampg rd), cur := none }) ∧
    (s.ent = ws.map .word → exec (.sampg rd) s = .next { s with cur := some (encode (.sampg rd)) })

/-- 42_sampler.md R104, R108 (b): for every GAUSS with the named property GAUSS_ZERO, SAMPG with SIGMA = 0 writes the zero
element and still draws 2n words. -/
def Obligations.SampgWithoutDeviationIsZero : Prop :=
  ∀ g (s : State) (rd : Reg) (ws : List Word) rest, Config.GaussZero g → s.sigma = 0 → s.ringN ≠ 0 → s.ringQ ≠ 0 →
    ws.length = 2 * s.ringN.toNat → s.ent = ws.map .word ++ rest →
    sampgWith g rd s = .next { s with
      p := s.p.set rd (some ⟨s.ringN, s.ringQ, List.replicate s.ringN.toNat 0⟩), ent := rest, cur := none }

-- Encoder -------------------------------------------------------------------------------------------------------

/-- 43_encoder.md R118 with R116, R117: ENCH's closed form. Coefficient i is half(q) times bit t = 7 − (i mod 8) of byte
y = floor((i mod 256) / 8) of the digest of counter block B = floor(i / 256), the 4 counter bytes in the order of CTR_ENDIAN
before the message. HASH is Config.hash, of which nothing is assumed (20_memory.md R38, log 4). While the hash port does not
answer ENCH holds (70_reset_and_hazards.md R179). -/
def Obligations.EnchExpandsTheDigest : Prop :=
  (∀ (s : State) (rd : Reg), s.ringN ≠ 0 → s.ringQ ≠ 0 → s.hashWaits = true →
    exec (.ench rd) s = .next { s with cur := some (encode (.ench rd)) }) ∧
  ∀ (s : State) (rd : Reg) m, s.ringN ≠ 0 → s.ringQ ≠ 0 → s.hashWaits = false → s.message = some m →
    ∃ c : List Word, c.length = s.ringN.toNat ∧
      (∀ i < s.ringN.toNat, (c.getD i 0).toNat =
        if ((Config.hash (counterBytes s.params.ctrEndian (BitVec.ofNat 32 (i / 256)) ++ m)).toList.getD
          (i % 256 / 8) 0).getLsbD (7 - i % 8) then s.ringQ.toNat / 2 else 0) ∧
      exec (.ench rd) s = .next { s with p := s.p.set rd (some ⟨s.ringN, s.ringQ, c⟩), cur := none }

/-- 43_encoder.md R117: the 4 counter bytes, least significant first or, with CTR_ENDIAN = big, in the opposite order; for
ctr = 0 the two agree. -/
def Obligations.CounterBytesInEitherOrder : Prop :=
  (∀ ctr : BitVec 32, (counterBytes .little ctr).map BitVec.toNat =
      [ctr.toNat % 256, ctr.toNat / 2 ^ 8 % 256, ctr.toNat / 2 ^ 16 % 256, ctr.toNat / 2 ^ 24] ∧
    counterBytes .big ctr = (counterBytes .little ctr).reverse) ∧
  counterBytes .little 0 = [0, 0, 0, 0] ∧ counterBytes .big 0 = [0, 0, 0, 0] ∧
  counterBytes .little 1 = [1, 0, 0, 0] ∧ counterBytes .big 1 = [0, 0, 0, 1]

/-- 43_encoder.md R119: ENCR writes the message bits, most significant bit of byte 0 first, then zeros, when the message has
at most n bits or ENCR_OVERLEN = truncate; with more bits and ENCR_OVERLEN = fault it raises MESSAGE_TOO_LONG. -/
def Obligations.EncrWritesTheMessageBits : Prop :=
  ∀ (s : State) (rd : Reg) m, s.ringN ≠ 0 → s.ringQ ≠ 0 → s.message = some m → m.length = s.msgLen.toNat →
    (8 * s.msgLen.toNat ≤ s.ringN.toNat ∨ s.params.encrOverlen = .truncate →
      ∃ c : List Word, c.length = s.ringN.toNat ∧
        (∀ i < s.ringN.toNat, (c.getD i 0).toNat =
          if i < 8 * s.msgLen.toNat ∧ (m.getD (i / 8) 0).getLsbD (7 - i % 8) then 1 else 0) ∧
        exec (.encr rd) s = .next { s with p := s.p.set rd (some ⟨s.ringN, s.ringQ, c⟩), cur := none }) ∧
    (s.ringN.toNat < 8 * s.msgLen.toNat → s.params.encrOverlen = .fault →
      exec (.encr rd) s =
        .next { s with fault := true, cause := .messageTooLong, fcmd := encode (.encr rd), cur := none })

/-- 10_state.md R20, 43_encoder.md R115: in every state that meets the invariant the message is there, MSG_LEN bytes of it,
byte a being MSGBUF[a]. -/
def Obligations.TheMessageIsPresent : Prop :=
  ∀ (s : State), s.Inv → ∃ m, s.message = some m ∧ m.length = s.msgLen.toNat ∧ ∀ a < m.length, s.msgbuf.read a = m[a]?
end

