-- ==== Sys2Proof/Laws/Numbers.lean ====
section
/-! SUPPORT. The numbers of operands: what a reduced coefficient is, and how long results are. -/

namespace Sys2Proof.Machine

/-- A reduction lands in [0, q) (00_scope.md R4). -/
theorem fmod_range (x q : Int) (h : 1 ≤ q) : 0 ≤ fmod x q ∧ fmod x q < q :=
  ⟨Int.emod_nonneg _ (by omega), Int.emod_lt_of_pos _ (by omega)⟩

/-- A coefficient is the reduced integer itself: q < 2^64, so nothing is lost (41_ring_arithmetic.md R89). -/
theorem coeff_toNat (x : Int) (q : Word) (h : q ≠ 0) : ((coeff x q).toNat : Int) = fmod x q.toNat := by
  have hq : 1 ≤ q.toNat := by
    rcases Nat.eq_zero_or_pos q.toNat with h0 | h0
    · exact absurd (BitVec.eq_of_toNat_eq (by simpa using h0)) h
    · exact h0
  have hr := fmod_range x q.toNat (by omega)
  have hlt := q.isLt
  have : (fmod x q.toNat).toNat < 2 ^ 64 := by omega
  rw [coeff, BitVec.toNat_ofNat, Nat.mod_eq_of_lt this]
  omega

/-- Every coefficient written is below its modulus (10_state.md R12). -/
theorem coeff_lt (x : Int) (q : Word) (h : q ≠ 0) : (coeff x q).toNat < q.toNat := by
  have h1 := coeff_toNat x q h
  have hq : 1 ≤ q.toNat := by
    rcases Nat.eq_zero_or_pos q.toNat with h0 | h0
    · exact absurd (BitVec.eq_of_toNat_eq (by simpa using h0)) h
    · exact h0
  have h2 := fmod_range x q.toNat (by omega)
  omega

/-- A legal modulus is not 0 (44_config_control.md R128). -/
theorem legalModulus_ne_zero (q : Word) (h : legalModulus q = true) : q ≠ 0 := by
  rintro rfl
  simp [legalModulus] at h

/-- The accumulator keeps its length through one row (41_ring_arithmetic.md R86). -/
@[simp] theorem mulRow_length (q i : Nat) (x : Word) (b : List Word) (acc : List Nat) :
    (mulRow q i x b acc).length = acc.length := by
  unfold mulRow
  generalize b.zipIdx = l
  induction l generalizing acc with
  | nil => rfl
  | cons y l ih => rw [List.foldl_cons, ih, List.length_modify]

/-- The accumulator has 2n entries (41_ring_arithmetic.md R86). -/
@[simp] theorem mulAcc_length (n q : Nat) (a b : List Word) : (mulAcc n q a b).length = 2 * n := by
  unfold mulAcc
  have : ∀ (l : List (Word × Nat)) (acc : List Nat),
      (l.foldl (fun acc xi => mulRow q xi.2 xi.1 b acc) acc).length = acc.length := by
    intro l
    induction l with
    | nil => intro acc; rfl
    | cons x l ih => intro acc; simp [ih]
  simp [this]

/-- A product has n coefficients (41_ring_arithmetic.md R86). -/
@[simp] theorem mulCoeffs_length (n : Nat) (q : Word) (a b : List Word) : (mulCoeffs n q a b).length = n := by
  simp [mulCoeffs]; omega

end Sys2Proof.Machine
end

