-- ==== Sys2Proof/Laws/Draws.lean ====
section
/-! SUPPORT. What draws from the entropy port come to (42_sampler.md R100 to R104): the answers used are a prefix, the
faults are the two of the samplers, the values are in range. -/

namespace Sys2Proof.Machine

/-- The answers a draw leaves are a suffix of those it was given, and its fault is one of `causes`. -/
structure Draw.Ok {α : Type} (d : Draw α) (good : α → Prop) (causes : List Cause) (ent : List EntropyAnswer) : Prop where
  got : ∀ x rest, d = .got x rest → good x ∧ rest <:+ ent
  fails : ∀ why rest, d = .fails why rest → why ∈ causes ∧ rest <:+ ent

/-- Going on with a draw: what holds of the first draw and of every continuation holds of the whole. -/
theorem Draw.andThen_ok {α β : Type} {d : Draw α} {f : α → List EntropyAnswer → Draw β} {good : α → Prop}
    {good' : β → Prop} {causes : List Cause} {ent : List EntropyAnswer} (hd : d.Ok good causes ent)
    (hf : ∀ x rest, good x → (f x rest).Ok good' causes rest) : (d.andThen f).Ok good' causes ent := by
  cases d with
  | waits => exact ⟨by simp [Draw.andThen], by simp [Draw.andThen]⟩
  | fails why rest =>
    refine ⟨by simp [Draw.andThen], fun why' rest' h => ?_⟩
    simp only [Draw.andThen, Draw.fails.injEq] at h
    exact h.1 ▸ h.2 ▸ hd.fails why rest rfl
  | got x rest =>
    obtain ⟨hx, hs⟩ := hd.got x rest rfl
    have h := hf x rest hx
    exact ⟨fun y r hy => ⟨(h.got y r hy).1, (h.got y r hy).2.trans hs⟩,
      fun why r hy => ⟨(h.fails why r hy).1, (h.fails why r hy).2.trans hs⟩⟩

/-- One entropy word: any word, or ENTROPY_UNAVAILABLE (20_memory.md R37). -/
theorem entropyWord_ok (ent : List EntropyAnswer) :
    (entropyWord ent).Ok (fun _ => True) [.entropyUnavailable] ent := by
  cases ent with
  | nil => exact ⟨by simp [entropyWord], by simp [entropyWord]⟩
  | cons a rest =>
    cases a <;> constructor <;> simp [entropyWord, List.suffix_cons_iff]

/-- One coefficient of SAMPU is below q (42_sampler.md R101). -/
theorem drawBelow_ok (q b limit rejects : Nat) (hq : q < 2 ^ 64) (ent : List EntropyAnswer) :
    (drawBelow q b limit rejects ent).Ok (fun x => x.toNat < q) [.entropyUnavailable, .samplerExhausted] ent := by
  induction ent generalizing rejects with
  | nil => exact ⟨by simp [drawBelow], by simp [drawBelow]⟩
  | cons a rest ih =>
    cases a with
    | failure => constructor <;> simp [drawBelow, List.suffix_cons_iff]
    | word w =>
      simp only [drawBelow]
      split
      · rename_i hv
        refine ⟨fun x r h => ?_, by simp⟩
        simp only [Draw.got.injEq] at h
        obtain ⟨rfl, rfl⟩ := h
        refine ⟨?_, List.suffix_cons _ _⟩
        rw [BitVec.toNat_ofNat, Nat.mod_eq_of_lt (by omega)]
        exact hv
      · split
        · refine ⟨by simp, fun why r h => ?_⟩
          simp only [Draw.fails.injEq] at h
          obtain ⟨rfl, rfl⟩ := h
          exact ⟨by simp, List.suffix_cons _ _⟩
        · have h := ih (rejects + 1)
          exact ⟨fun x r hx => ⟨(h.got x r hx).1, (h.got x r hx).2.trans (List.suffix_cons _ _)⟩,
            fun why r hx => ⟨(h.fails why r hx).1, (h.fails why r hx).2.trans (List.suffix_cons _ _)⟩⟩

/-- One coefficient of SAMPG is below q, and no fault but ENTROPY_UNAVAILABLE arises (42_sampler.md R104). -/
theorem drawGauss_ok (g : Word → Word → Imm → Int) (q : Word) (sg : Imm) (hq : q ≠ 0) (ent : List EntropyAnswer) :
    (drawGauss g q sg ent).Ok (fun x => x.toNat < q.toNat) [.entropyUnavailable] ent :=
  Draw.andThen_ok (entropyWord_ok ent) fun w1 rest _ => Draw.andThen_ok (entropyWord_ok rest) fun w2 rest' _ =>
    ⟨fun x r h => by
      simp only [Draw.got.injEq] at h
      exact ⟨h.1 ▸ coeff_lt _ _ hq, h.2 ▸ List.suffix_rfl⟩, by simp⟩

/-- n draws give n values, each good when every single draw is (42_sampler.md R100). -/
theorem drawMany_ok {α : Type} {one : List EntropyAnswer → Draw α} {good : α → Prop} {causes : List Cause}
    (h : ∀ ent, (one ent).Ok good causes ent) (n : Nat) (ent : List EntropyAnswer) :
    (drawMany one n ent).Ok (fun xs => xs.length = n ∧ ∀ x ∈ xs, good x) causes ent := by
  induction n generalizing ent with
  | zero =>
    refine ⟨fun xs r hx => ?_, by simp [drawMany]⟩
    simp only [drawMany, Draw.got.injEq] at hx
    exact ⟨by simp [← hx.1], hx.2 ▸ List.suffix_rfl⟩
  | succ n ih =>
    refine Draw.andThen_ok (h ent) fun x rest hx => Draw.andThen_ok (ih rest) fun xs rest' hxs => ⟨fun ys r hy => ?_, by simp⟩
    simp only [Draw.got.injEq] at hy
    obtain ⟨rfl, rfl⟩ := hy
    exact ⟨by simpa [hxs.1] using ⟨hx, hxs.2⟩, List.suffix_rfl⟩

end Sys2Proof.Machine
end

