-- ==== Sys2Proof/Laws/Encoding.lean ====
section
/-! SUPPORT. The fields of an encoded word, said once per format (30_encoding.md R51, R52). -/

namespace Sys2Proof

/-- An R-format word as a number. -/
theorem encodeR_toNat {op : Nat} (h : op < 256) (rd ra rb : Reg) :
    (encodeR op rd ra rb).toNat = op * 2 ^ 24 + rd.val * 2 ^ 21 + ra.val * 2 ^ 18 + rb.val * 2 ^ 15 := by
  simp only [encodeR, BitVec.toNat_ofNat]
  omega

/-- An I-format word as a number. -/
theorem encodeI_toNat {op : Nat} (h : op < 256) (rd : Reg) (imm : Imm) :
    (encodeI op rd imm).toNat = op * 2 ^ 24 + rd.val * 2 ^ 21 + imm.toNat := by
  simp only [encodeI, BitVec.toNat_ofNat]
  have := imm.isLt
  omega

/-- Every field of an R-format word reads as it was written. -/
theorem encodeR_fields {op : Nat} (h : op < 256) (rd ra rb : Reg) :
    opField (encodeR op rd ra rb) = op ∧ rdField (encodeR op rd ra rb) = rd ∧
      raField (encodeR op rd ra rb) = ra ∧ rbField (encodeR op rd ra rb) = rb := by
  refine ⟨?_, Fin.ext ?_, Fin.ext ?_, Fin.ext ?_⟩ <;>
    simp only [opField, rdField, raField, rbField, bitField, encodeR_toNat h, Fin.val_ofNat] <;> omega

/-- Every field of an I-format word reads as it was written. -/
theorem encodeI_fields {op : Nat} (h : op < 256) (rd : Reg) (imm : Imm) :
    opField (encodeI op rd imm) = op ∧ rdField (encodeI op rd imm) = rd ∧ immField (encodeI op rd imm) = imm := by
  have := imm.isLt
  refine ⟨?_, Fin.ext ?_, BitVec.eq_of_toNat_eq ?_⟩ <;>
    simp only [opField, rdField, immField, bitField, encodeI_toNat h, Fin.val_ofNat, BitVec.toNat_ofNat] <;> omega

/-- The must-be-zero bits of each R sub-form are zero in its words. -/
theorem encodeR_zero {op : Nat} (h : op < 256) (rd ra rb : Reg) :
    zeroRRR (encodeR op rd ra rb) = true ∧ zeroRR (encodeR op rd ra 0) = true ∧
      zeroRD (encodeR op rd 0 0) = true ∧ zeroRA (encodeR op 0 ra 0) = true ∧ zeroRZ (encodeR op 0 0 0) = true := by
  simp only [zeroRRR, zeroRR, zeroRD, zeroRA, zeroRZ, bitField, encodeR_toNat h, beq_iff_eq, Bool.and_eq_true,
    Fin.val_zero]
  omega

/-- The must-be-zero bits of each I sub-form are zero in its words. -/
theorem encodeI_zero {op : Nat} (h : op < 256) (rd : Reg) (imm : Imm) :
    zeroID (encodeI op rd imm) = true ∧ zeroIZ (encodeI op 0 imm) = true := by
  have := imm.isLt
  simp only [zeroID, zeroIZ, bitField, encodeI_toNat h, beq_iff_eq, Fin.val_zero]
  omega

end Sys2Proof
end

