-- ==== Sys2Proof/Laws/State.lean ====
section
/-! SUPPORT. One lemma per field per update of State, and what a register reads as after each update. -/

namespace Sys2Proof.Machine

variable (s : State)

-- State.finish
@[simp] theorem State.finish_params : (s.finish).params = s.params := rfl
@[simp] theorem State.finish_p : (s.finish).p = s.p := rfl
@[simp] theorem State.finish_ringN : (s.finish).ringN = s.ringN := rfl
@[simp] theorem State.finish_ringQ : (s.finish).ringQ = s.ringQ := rfl
@[simp] theorem State.finish_k : (s.finish).k = s.k := rfl
@[simp] theorem State.finish_sigma : (s.finish).sigma = s.sigma := rfl
@[simp] theorem State.finish_msgLen : (s.finish).msgLen = s.msgLen := rfl
@[simp] theorem State.finish_msgbuf : (s.finish).msgbuf = s.msgbuf := rfl
@[simp] theorem State.finish_fault : (s.finish).fault = s.fault := rfl
@[simp] theorem State.finish_cause : (s.finish).cause = s.cause := rfl
@[simp] theorem State.finish_fcmd : (s.finish).fcmd = s.fcmd := rfl
@[simp] theorem State.finish_din : (s.finish).din = s.din := rfl
@[simp] theorem State.finish_dout : (s.finish).dout = s.dout := rfl
@[simp] theorem State.finish_cur : (s.finish).cur = none := rfl
@[simp] theorem State.finish_cmdIn : (s.finish).cmdIn = s.cmdIn := rfl
@[simp] theorem State.finish_ent : (s.finish).ent = s.ent := rfl
@[simp] theorem State.finish_hashWaits : (s.finish).hashWaits = s.hashWaits := rfl
@[simp] theorem State.finish_rstIn : (s.finish).rstIn = s.rstIn := rfl
@[simp] theorem State.readReg_finish (r : Reg) : (s.finish).readReg r = s.readReg r := rfl

-- State.clearFault
@[simp] theorem State.clearFault_params : (s.clearFault).params = s.params := rfl
@[simp] theorem State.clearFault_p : (s.clearFault).p = s.p := rfl
@[simp] theorem State.clearFault_ringN : (s.clearFault).ringN = s.ringN := rfl
@[simp] theorem State.clearFault_ringQ : (s.clearFault).ringQ = s.ringQ := rfl
@[simp] theorem State.clearFault_k : (s.clearFault).k = s.k := rfl
@[simp] theorem State.clearFault_sigma : (s.clearFault).sigma = s.sigma := rfl
@[simp] theorem State.clearFault_msgLen : (s.clearFault).msgLen = s.msgLen := rfl
@[simp] theorem State.clearFault_msgbuf : (s.clearFault).msgbuf = s.msgbuf := rfl
@[simp] theorem State.clearFault_fault : (s.clearFault).fault = false := rfl
@[simp] theorem State.clearFault_cause : (s.clearFault).cause = .none := rfl
@[simp] theorem State.clearFault_fcmd : (s.clearFault).fcmd = 0 := rfl
@[simp] theorem State.clearFault_din : (s.clearFault).din = s.din := rfl
@[simp] theorem State.clearFault_dout : (s.clearFault).dout = s.dout := rfl
@[simp] theorem State.clearFault_cur : (s.clearFault).cur = s.cur := rfl
@[simp] theorem State.clearFault_cmdIn : (s.clearFault).cmdIn = s.cmdIn := rfl
@[simp] theorem State.clearFault_ent : (s.clearFault).ent = s.ent := rfl
@[simp] theorem State.clearFault_hashWaits : (s.clearFault).hashWaits = s.hashWaits := rfl
@[simp] theorem State.clearFault_rstIn : (s.clearFault).rstIn = s.rstIn := rfl
@[simp] theorem State.readReg_clearFault (r : Reg) : (s.clearFault).readReg r = s.readReg r := rfl

-- State.raise
@[simp] theorem State.raise_params (x : Cause) (cmd : Cmd) : (State.raise x cmd s).params = s.params := rfl
@[simp] theorem State.raise_p (x : Cause) (cmd : Cmd) : (State.raise x cmd s).p = s.p := rfl
@[simp] theorem State.raise_ringN (x : Cause) (cmd : Cmd) : (State.raise x cmd s).ringN = s.ringN := rfl
@[simp] theorem State.raise_ringQ (x : Cause) (cmd : Cmd) : (State.raise x cmd s).ringQ = s.ringQ := rfl
@[simp] theorem State.raise_k (x : Cause) (cmd : Cmd) : (State.raise x cmd s).k = s.k := rfl
@[simp] theorem State.raise_sigma (x : Cause) (cmd : Cmd) : (State.raise x cmd s).sigma = s.sigma := rfl
@[simp] theorem State.raise_msgLen (x : Cause) (cmd : Cmd) : (State.raise x cmd s).msgLen = s.msgLen := rfl
@[simp] theorem State.raise_msgbuf (x : Cause) (cmd : Cmd) : (State.raise x cmd s).msgbuf = s.msgbuf := rfl
@[simp] theorem State.raise_fault (x : Cause) (cmd : Cmd) : (State.raise x cmd s).fault = true := rfl
@[simp] theorem State.raise_cause (x : Cause) (cmd : Cmd) : (State.raise x cmd s).cause = x := rfl
@[simp] theorem State.raise_fcmd (x : Cause) (cmd : Cmd) : (State.raise x cmd s).fcmd = cmd := rfl
@[simp] theorem State.raise_din (x : Cause) (cmd : Cmd) : (State.raise x cmd s).din = s.din := rfl
@[simp] theorem State.raise_dout (x : Cause) (cmd : Cmd) : (State.raise x cmd s).dout = s.dout := rfl
@[simp] theorem State.raise_cur (x : Cause) (cmd : Cmd) : (State.raise x cmd s).cur = none := rfl
@[simp] theorem State.raise_cmdIn (x : Cause) (cmd : Cmd) : (State.raise x cmd s).cmdIn = s.cmdIn := rfl
@[simp] theorem State.raise_ent (x : Cause) (cmd : Cmd) : (State.raise x cmd s).ent = s.ent := rfl
@[simp] theorem State.raise_hashWaits (x : Cause) (cmd : Cmd) : (State.raise x cmd s).hashWaits = s.hashWaits := rfl
@[simp] theorem State.raise_rstIn (x : Cause) (cmd : Cmd) : (State.raise x cmd s).rstIn = s.rstIn := rfl
@[simp] theorem State.readReg_raise (x : Cause) (cmd : Cmd) (r : Reg) : (State.raise x cmd s).readReg r = s.readReg r := rfl

-- State.acknowledge
@[simp] theorem State.acknowledge_params : (s.acknowledge).params = s.params := rfl
@[simp] theorem State.acknowledge_p : (s.acknowledge).p = s.p := rfl
@[simp] theorem State.acknowledge_ringN : (s.acknowledge).ringN = s.ringN := rfl
@[simp] theorem State.acknowledge_ringQ : (s.acknowledge).ringQ = s.ringQ := rfl
@[simp] theorem State.acknowledge_k : (s.acknowledge).k = s.k := rfl
@[simp] theorem State.acknowledge_sigma : (s.acknowledge).sigma = s.sigma := rfl
@[simp] theorem State.acknowledge_msgLen : (s.acknowledge).msgLen = s.msgLen := rfl
@[simp] theorem State.acknowledge_msgbuf : (s.acknowledge).msgbuf = s.msgbuf := rfl
@[simp] theorem State.acknowledge_fault : (s.acknowledge).fault = false := rfl
@[simp] theorem State.acknowledge_cause : (s.acknowledge).cause = .none := rfl
@[simp] theorem State.acknowledge_fcmd : (s.acknowledge).fcmd = 0 := rfl
@[simp] theorem State.acknowledge_din : (s.acknowledge).din = [] := rfl
@[simp] theorem State.acknowledge_dout : (s.acknowledge).dout = s.dout := rfl
@[simp] theorem State.acknowledge_cur : (s.acknowledge).cur = s.cur := rfl
@[simp] theorem State.acknowledge_cmdIn : (s.acknowledge).cmdIn = s.cmdIn := rfl
@[simp] theorem State.acknowledge_ent : (s.acknowledge).ent = s.ent := rfl
@[simp] theorem State.acknowledge_hashWaits : (s.acknowledge).hashWaits = s.hashWaits := rfl
@[simp] theorem State.acknowledge_rstIn : (s.acknowledge).rstIn = s.rstIn := rfl
@[simp] theorem State.readReg_acknowledge (r : Reg) : (s.acknowledge).readReg r = s.readReg r := rfl

-- State.hold
@[simp] theorem State.hold_params (cmd : Cmd) : (State.hold cmd s).params = s.params := rfl
@[simp] theorem State.hold_p (cmd : Cmd) : (State.hold cmd s).p = s.p := rfl
@[simp] theorem State.hold_ringN (cmd : Cmd) : (State.hold cmd s).ringN = s.ringN := rfl
@[simp] theorem State.hold_ringQ (cmd : Cmd) : (State.hold cmd s).ringQ = s.ringQ := rfl
@[simp] theorem State.hold_k (cmd : Cmd) : (State.hold cmd s).k = s.k := rfl
@[simp] theorem State.hold_sigma (cmd : Cmd) : (State.hold cmd s).sigma = s.sigma := rfl
@[simp] theorem State.hold_msgLen (cmd : Cmd) : (State.hold cmd s).msgLen = s.msgLen := rfl
@[simp] theorem State.hold_msgbuf (cmd : Cmd) : (State.hold cmd s).msgbuf = s.msgbuf := rfl
@[simp] theorem State.hold_fault (cmd : Cmd) : (State.hold cmd s).fault = s.fault := rfl
@[simp] theorem State.hold_cause (cmd : Cmd) : (State.hold cmd s).cause = s.cause := rfl
@[simp] theorem State.hold_fcmd (cmd : Cmd) : (State.hold cmd s).fcmd = s.fcmd := rfl
@[simp] theorem State.hold_din (cmd : Cmd) : (State.hold cmd s).din = s.din := rfl
@[simp] theorem State.hold_dout (cmd : Cmd) : (State.hold cmd s).dout = s.dout := rfl
@[simp] theorem State.hold_cur (cmd : Cmd) : (State.hold cmd s).cur = some cmd := rfl
@[simp] theorem State.hold_cmdIn (cmd : Cmd) : (State.hold cmd s).cmdIn = s.cmdIn := rfl
@[simp] theorem State.hold_ent (cmd : Cmd) : (State.hold cmd s).ent = s.ent := rfl
@[simp] theorem State.hold_hashWaits (cmd : Cmd) : (State.hold cmd s).hashWaits = s.hashWaits := rfl
@[simp] theorem State.hold_rstIn (cmd : Cmd) : (State.hold cmd s).rstIn = s.rstIn := rfl
@[simp] theorem State.readReg_hold (cmd : Cmd) (r : Reg) : (State.hold cmd s).readReg r = s.readReg r := rfl

-- State.writeReg
@[simp] theorem State.writeReg_params (r : Reg) (e : Element) : (State.writeReg r e s).params = s.params := rfl
@[simp] theorem State.writeReg_p (r : Reg) (e : Element) : (State.writeReg r e s).p = s.p.set r (some e) := rfl
@[simp] theorem State.writeReg_ringN (r : Reg) (e : Element) : (State.writeReg r e s).ringN = s.ringN := rfl
@[simp] theorem State.writeReg_ringQ (r : Reg) (e : Element) : (State.writeReg r e s).ringQ = s.ringQ := rfl
@[simp] theorem State.writeReg_k (r : Reg) (e : Element) : (State.writeReg r e s).k = s.k := rfl
@[simp] theorem State.writeReg_sigma (r : Reg) (e : Element) : (State.writeReg r e s).sigma = s.sigma := rfl
@[simp] theorem State.writeReg_msgLen (r : Reg) (e : Element) : (State.writeReg r e s).msgLen = s.msgLen := rfl
@[simp] theorem State.writeReg_msgbuf (r : Reg) (e : Element) : (State.writeReg r e s).msgbuf = s.msgbuf := rfl
@[simp] theorem State.writeReg_fault (r : Reg) (e : Element) : (State.writeReg r e s).fault = s.fault := rfl
@[simp] theorem State.writeReg_cause (r : Reg) (e : Element) : (State.writeReg r e s).cause = s.cause := rfl
@[simp] theorem State.writeReg_fcmd (r : Reg) (e : Element) : (State.writeReg r e s).fcmd = s.fcmd := rfl
@[simp] theorem State.writeReg_din (r : Reg) (e : Element) : (State.writeReg r e s).din = s.din := rfl
@[simp] theorem State.writeReg_dout (r : Reg) (e : Element) : (State.writeReg r e s).dout = s.dout := rfl
@[simp] theorem State.writeReg_cur (r : Reg) (e : Element) : (State.writeReg r e s).cur = s.cur := rfl
@[simp] theorem State.writeReg_cmdIn (r : Reg) (e : Element) : (State.writeReg r e s).cmdIn = s.cmdIn := rfl
@[simp] theorem State.writeReg_ent (r : Reg) (e : Element) : (State.writeReg r e s).ent = s.ent := rfl
@[simp] theorem State.writeReg_hashWaits (r : Reg) (e : Element) : (State.writeReg r e s).hashWaits = s.hashWaits := rfl
@[simp] theorem State.writeReg_rstIn (r : Reg) (e : Element) : (State.writeReg r e s).rstIn = s.rstIn := rfl

-- State.pushDout
@[simp] theorem State.pushDout_params (ws : List Word) : (State.pushDout ws s).params = s.params := rfl
@[simp] theorem State.pushDout_p (ws : List Word) : (State.pushDout ws s).p = s.p := rfl
@[simp] theorem State.pushDout_ringN (ws : List Word) : (State.pushDout ws s).ringN = s.ringN := rfl
@[simp] theorem State.pushDout_ringQ (ws : List Word) : (State.pushDout ws s).ringQ = s.ringQ := rfl
@[simp] theorem State.pushDout_k (ws : List Word) : (State.pushDout ws s).k = s.k := rfl
@[simp] theorem State.pushDout_sigma (ws : List Word) : (State.pushDout ws s).sigma = s.sigma := rfl
@[simp] theorem State.pushDout_msgLen (ws : List Word) : (State.pushDout ws s).msgLen = s.msgLen := rfl
@[simp] theorem State.pushDout_msgbuf (ws : List Word) : (State.pushDout ws s).msgbuf = s.msgbuf := rfl
@[simp] theorem State.pushDout_fault (ws : List Word) : (State.pushDout ws s).fault = s.fault := rfl
@[simp] theorem State.pushDout_cause (ws : List Word) : (State.pushDout ws s).cause = s.cause := rfl
@[simp] theorem State.pushDout_fcmd (ws : List Word) : (State.pushDout ws s).fcmd = s.fcmd := rfl
@[simp] theorem State.pushDout_din (ws : List Word) : (State.pushDout ws s).din = s.din := rfl
@[simp] theorem State.pushDout_dout (ws : List Word) : (State.pushDout ws s).dout = s.dout ++ ws := rfl
@[simp] theorem State.pushDout_cur (ws : List Word) : (State.pushDout ws s).cur = s.cur := rfl
@[simp] theorem State.pushDout_cmdIn (ws : List Word) : (State.pushDout ws s).cmdIn = s.cmdIn := rfl
@[simp] theorem State.pushDout_ent (ws : List Word) : (State.pushDout ws s).ent = s.ent := rfl
@[simp] theorem State.pushDout_hashWaits (ws : List Word) : (State.pushDout ws s).hashWaits = s.hashWaits := rfl
@[simp] theorem State.pushDout_rstIn (ws : List Word) : (State.pushDout ws s).rstIn = s.rstIn := rfl
@[simp] theorem State.readReg_pushDout (ws : List Word) (r : Reg) : (State.pushDout ws s).readReg r = s.readReg r := rfl

-- State.dropDin
@[simp] theorem State.dropDin_params (m : Nat) : (State.dropDin m s).params = s.params := rfl
@[simp] theorem State.dropDin_p (m : Nat) : (State.dropDin m s).p = s.p := rfl
@[simp] theorem State.dropDin_ringN (m : Nat) : (State.dropDin m s).ringN = s.ringN := rfl
@[simp] theorem State.dropDin_ringQ (m : Nat) : (State.dropDin m s).ringQ = s.ringQ := rfl
@[simp] theorem State.dropDin_k (m : Nat) : (State.dropDin m s).k = s.k := rfl
@[simp] theorem State.dropDin_sigma (m : Nat) : (State.dropDin m s).sigma = s.sigma := rfl
@[simp] theorem State.dropDin_msgLen (m : Nat) : (State.dropDin m s).msgLen = s.msgLen := rfl
@[simp] theorem State.dropDin_msgbuf (m : Nat) : (State.dropDin m s).msgbuf = s.msgbuf := rfl
@[simp] theorem State.dropDin_fault (m : Nat) : (State.dropDin m s).fault = s.fault := rfl
@[simp] theorem State.dropDin_cause (m : Nat) : (State.dropDin m s).cause = s.cause := rfl
@[simp] theorem State.dropDin_fcmd (m : Nat) : (State.dropDin m s).fcmd = s.fcmd := rfl
@[simp] theorem State.dropDin_din (m : Nat) : (State.dropDin m s).din = s.din.drop m := rfl
@[simp] theorem State.dropDin_dout (m : Nat) : (State.dropDin m s).dout = s.dout := rfl
@[simp] theorem State.dropDin_cur (m : Nat) : (State.dropDin m s).cur = s.cur := rfl
@[simp] theorem State.dropDin_cmdIn (m : Nat) : (State.dropDin m s).cmdIn = s.cmdIn := rfl
@[simp] theorem State.dropDin_ent (m : Nat) : (State.dropDin m s).ent = s.ent := rfl
@[simp] theorem State.dropDin_hashWaits (m : Nat) : (State.dropDin m s).hashWaits = s.hashWaits := rfl
@[simp] theorem State.dropDin_rstIn (m : Nat) : (State.dropDin m s).rstIn = s.rstIn := rfl
@[simp] theorem State.readReg_dropDin (m : Nat) (r : Reg) : (State.dropDin m s).readReg r = s.readReg r := rfl

-- State.setEnt
@[simp] theorem State.setEnt_params (l : List EntropyAnswer) : (State.setEnt l s).params = s.params := rfl
@[simp] theorem State.setEnt_p (l : List EntropyAnswer) : (State.setEnt l s).p = s.p := rfl
@[simp] theorem State.setEnt_ringN (l : List EntropyAnswer) : (State.setEnt l s).ringN = s.ringN := rfl
@[simp] theorem State.setEnt_ringQ (l : List EntropyAnswer) : (State.setEnt l s).ringQ = s.ringQ := rfl
@[simp] theorem State.setEnt_k (l : List EntropyAnswer) : (State.setEnt l s).k = s.k := rfl
@[simp] theorem State.setEnt_sigma (l : List EntropyAnswer) : (State.setEnt l s).sigma = s.sigma := rfl
@[simp] theorem State.setEnt_msgLen (l : List EntropyAnswer) : (State.setEnt l s).msgLen = s.msgLen := rfl
@[simp] theorem State.setEnt_msgbuf (l : List EntropyAnswer) : (State.setEnt l s).msgbuf = s.msgbuf := rfl
@[simp] theorem State.setEnt_fault (l : List EntropyAnswer) : (State.setEnt l s).fault = s.fault := rfl
@[simp] theorem State.setEnt_cause (l : List EntropyAnswer) : (State.setEnt l s).cause = s.cause := rfl
@[simp] theorem State.setEnt_fcmd (l : List EntropyAnswer) : (State.setEnt l s).fcmd = s.fcmd := rfl
@[simp] theorem State.setEnt_din (l : List EntropyAnswer) : (State.setEnt l s).din = s.din := rfl
@[simp] theorem State.setEnt_dout (l : List EntropyAnswer) : (State.setEnt l s).dout = s.dout := rfl
@[simp] theorem State.setEnt_cur (l : List EntropyAnswer) : (State.setEnt l s).cur = s.cur := rfl
@[simp] theorem State.setEnt_cmdIn (l : List EntropyAnswer) : (State.setEnt l s).cmdIn = s.cmdIn := rfl
@[simp] theorem State.setEnt_ent (l : List EntropyAnswer) : (State.setEnt l s).ent = l := rfl
@[simp] theorem State.setEnt_hashWaits (l : List EntropyAnswer) : (State.setEnt l s).hashWaits = s.hashWaits := rfl
@[simp] theorem State.setEnt_rstIn (l : List EntropyAnswer) : (State.setEnt l s).rstIn = s.rstIn := rfl
@[simp] theorem State.readReg_setEnt (l : List EntropyAnswer) (r : Reg) : (State.setEnt l s).readReg r = s.readReg r := rfl

-- State.setMessage
@[simp] theorem State.setMessage_params (bs : List Byte) : (s.setMessage bs).params = s.params := rfl
@[simp] theorem State.setMessage_p (bs : List Byte) : (s.setMessage bs).p = s.p := rfl
@[simp] theorem State.setMessage_ringN (bs : List Byte) : (s.setMessage bs).ringN = s.ringN := rfl
@[simp] theorem State.setMessage_ringQ (bs : List Byte) : (s.setMessage bs).ringQ = s.ringQ := rfl
@[simp] theorem State.setMessage_k (bs : List Byte) : (s.setMessage bs).k = s.k := rfl
@[simp] theorem State.setMessage_sigma (bs : List Byte) : (s.setMessage bs).sigma = s.sigma := rfl
@[simp] theorem State.setMessage_msgLen (bs : List Byte) : (s.setMessage bs).msgLen = BitVec.ofNat 16 bs.length := rfl
@[simp] theorem State.setMessage_msgbuf (bs : List Byte) : (s.setMessage bs).msgbuf = Memory.writeBytes [] 0 bs := rfl
@[simp] theorem State.setMessage_fault (bs : List Byte) : (s.setMessage bs).fault = s.fault := rfl
@[simp] theorem State.setMessage_cause (bs : List Byte) : (s.setMessage bs).cause = s.cause := rfl
@[simp] theorem State.setMessage_fcmd (bs : List Byte) : (s.setMessage bs).fcmd = s.fcmd := rfl
@[simp] theorem State.setMessage_din (bs : List Byte) : (s.setMessage bs).din = s.din := rfl
@[simp] theorem State.setMessage_dout (bs : List Byte) : (s.setMessage bs).dout = s.dout := rfl
@[simp] theorem State.setMessage_cur (bs : List Byte) : (s.setMessage bs).cur = s.cur := rfl
@[simp] theorem State.setMessage_cmdIn (bs : List Byte) : (s.setMessage bs).cmdIn = s.cmdIn := rfl
@[simp] theorem State.setMessage_ent (bs : List Byte) : (s.setMessage bs).ent = s.ent := rfl
@[simp] theorem State.setMessage_hashWaits (bs : List Byte) : (s.setMessage bs).hashWaits = s.hashWaits := rfl
@[simp] theorem State.setMessage_rstIn (bs : List Byte) : (s.setMessage bs).rstIn = s.rstIn := rfl
@[simp] theorem State.readReg_setMessage (bs : List Byte) (r : Reg) : (s.setMessage bs).readReg r = s.readReg r := rfl

/-- A register written reads as the element written (10_state.md R11). -/
@[simp] theorem State.readReg_writeReg_same (r : Reg) (e : Element) : (s.writeReg r e).readReg r = some e := by
  simp [State.readReg, State.writeReg]

/-- A register not written reads as before (10_state.md R14). -/
theorem State.readReg_writeReg_other (r r' : Reg) (e : Element) (h : r' ≠ r) :
    (s.writeReg r e).readReg r' = s.readReg r' := by
  have h' : (r : Nat) ≠ r' := fun hv => h (Fin.ext hv.symm)
  simp [State.readReg, State.writeReg, Vector.getElem_set_ne, h']

/-- After a reset no register is valid (10_state.md R26). -/
@[simp] theorem State.readReg_resetWith (c : Config.Params) (r : Reg) : (State.resetWith c).readReg r = none := by
  simp [State.readReg, State.resetWith]

end Sys2Proof.Machine
end

