-- ==== Sys2Proof/Laws/Memory.lean ====
section
/-! SUPPORT. MSGBUF: what a byte reads as after a write, and that every memory operation keeps the canonical form. -/

namespace Sys2Proof.Machine

/-- A byte reads as the value last written to its index. -/
@[simp] theorem Memory.read_write_same (m : Memory) (a : Nat) (v : Byte) : (m.write a v).read a = some v := by
  induction m with
  | nil => simp [Memory.write, Memory.read]
  | cons x rest ih =>
    obtain ⟨b, w⟩ := x
    simp only [Memory.write]
    split
    · simp [Memory.read]
    · split
      · simp [Memory.read]
      · rename_i h1 h2
        simp [Memory.read, h1, h2, ih]

/-- A write leaves every other byte alone. -/
theorem Memory.read_write_other (m : Memory) (a a' : Nat) (v : Byte) (h : a' ≠ a) :
    (m.write a v).read a' = m.read a' := by
  induction m with
  | nil => simp [Memory.write, Memory.read, h]
  | cons x rest ih =>
    obtain ⟨b, w⟩ := x
    simp only [Memory.write]
    split
    · simp only [Memory.read, if_neg h]
      split <;> split <;> first | rfl | omega | (split <;> first | rfl | omega)
    · split
      · rename_i h1 h2
        subst h2
        simp [Memory.read, h]
      · simp only [Memory.read, ih]

/-- The index the list begins at after a write: the one written or the one it began at. -/
theorem Memory.write_head (m : Memory) (a : Nat) (v : Byte) (c : Host.Cell) (h : (m.write a v).head? = some c) :
    c.1 = a ∨ m.head? = some c := by
  cases m with
  | nil => simp [Memory.write] at h; exact .inl (by rw [← h])
  | cons x rest =>
    obtain ⟨b, w⟩ := x
    simp only [Memory.write] at h
    split at h
    · simp at h; exact .inl (by rw [← h])
    · split at h
      · simp at h; exact .inl (by rw [← h])
      · simpa using Or.inr h

/-- The canonical form of a non-empty list: its tail has it, and its head lies below the tail's head. -/
theorem Memory.wf_cons (x : Host.Cell) (m : Memory) :
    Memory.wf (x :: m) = true ↔ (∀ c, m.head? = some c → x.1 < c.1) ∧ m.wf = true := by
  cases m <;> simp [Memory.wf]

/-- A write keeps the canonical form. -/
theorem Memory.write_wf (m : Memory) (a : Nat) (v : Byte) (h : m.wf = true) : (m.write a v).wf = true := by
  induction m with
  | nil => rfl
  | cons x rest ih =>
    obtain ⟨b, w⟩ := x
    have hx := (Memory.wf_cons _ _).1 h
    simp only [Memory.write]
    split
    · rename_i hlt
      exact (Memory.wf_cons _ _).2 ⟨by simpa using hlt, h⟩
    · split
      · rename_i _ heq
        subst heq
        exact (Memory.wf_cons _ _).2 hx
      · rename_i hnlt hne
        refine (Memory.wf_cons _ _).2 ⟨fun c hc => ?_, ih hx.2⟩
        rcases Memory.write_head _ _ _ _ hc with hc | hc
        · simp only [hc]; omega
        · exact hx.1 c hc

/-- Writing consecutive bytes keeps the canonical form. -/
theorem Memory.writeBytes_wf (bs : List Byte) (m : Memory) (a : Nat) (h : m.wf = true) :
    (m.writeBytes a bs).wf = true := by
  induction bs generalizing m a with
  | nil => simpa [Memory.writeBytes] using h
  | cons v vs ih => exact ih _ _ (Memory.write_wf m a v h)

/-- What an index reads as after consecutive bytes are written from index `a` up. -/
theorem Memory.read_writeBytes (bs : List Byte) (m : Memory) (a i : Nat) :
    (m.writeBytes a bs).read i = if a ≤ i ∧ i < a + bs.length then bs[i - a]? else m.read i := by
  induction bs generalizing m a with
  | nil => simp [Memory.writeBytes]
  | cons v vs ih =>
    simp only [Memory.writeBytes, ih, List.length_cons]
    by_cases hi : i = a
    · subst hi
      simp
    · rw [Memory.read_write_other _ _ _ _ hi]
      by_cases hr : a + 1 ≤ i ∧ i < a + 1 + vs.length
      · have : i - a = i - (a + 1) + 1 := by omega
        rw [if_pos hr, if_pos (by omega), this, List.getElem?_cons_succ]
      · rw [if_neg hr, if_neg (by omega)]

/-- Bytes read one after another, when each of them is there. -/
theorem Memory.readBytes_eq_some (m : Memory) (len a : Nat) (bs : List Byte) (hl : bs.length = len)
    (h : ∀ i < len, m.read (a + i) = bs[i]?) : m.readBytes a len = some bs := by
  induction len generalizing a bs with
  | zero => simp [Memory.readBytes, List.eq_nil_of_length_eq_zero hl]
  | succ len ih =>
    cases bs with
    | nil => simp at hl
    | cons v vs =>
      have h0 : m.read a = some v := by simpa using h 0 (by omega)
      have ht : m.readBytes (a + 1) len = some vs := by
        refine ih (a + 1) vs (by simpa using hl) fun i hi => ?_
        have := h (i + 1) (by omega)
        simpa [Nat.add_assoc, Nat.add_comm 1 i] using this
      simp [Memory.readBytes, h0, ht]

/-- The message set reads back whole (40_element_transfer.md R75). -/
theorem State.message_setMessage (s : State) (bs : List Byte) (h : bs.length < 2 ^ 16) :
    (s.setMessage bs).message = some bs := by
  have hlen : (s.setMessage bs).msgLen.toNat = bs.length := by
    simpa using Nat.mod_eq_of_lt h
  refine Memory.readBytes_eq_some _ _ _ _ hlen.symm fun i hi => ?_
  · have hi' : i < bs.length := hlen ▸ hi
    simp [Memory.read_writeBytes, hi']

/-- When MSGBUF holds every byte below MSG_LEN there is a message, of MSG_LEN bytes (43_encoder.md R115). -/
theorem State.message_isSome (s : State) (h : ∀ a, a < s.msgLen.toNat → (s.msgbuf.read a).isSome = true) :
    ∃ bs, s.message = some bs ∧ bs.length = s.msgLen.toNat := by
  refine ⟨(List.range s.msgLen.toNat).map fun a => (s.msgbuf.read a).getD 0, ?_, by simp⟩
  refine Memory.readBytes_eq_some _ _ _ _ (by simp) fun i hi => ?_
  obtain ⟨v, hv⟩ := Option.isSome_iff_exists.1 (h i hi)
  simp [hi, hv]

end Sys2Proof.Machine
end

