-- ==== Sys2Proof/Laws/Ops.lean ====
section
/-! SUPPORT. What each shared operation can do, said once: an inversion lemma (if it answers next, then one of these) and
the equations of its branches. -/

namespace Sys2Proof.Machine

variable {cmd : Cmd} {s t : State}

/-- The creation precondition either raises CONFIG_ERROR or hands on RING_N and RING_Q (40_element_transfer.md R70). -/
theorem withRing_next {body : Imm → Word → Result} (h : withRing cmd s body = .next t) :
    ((s.ringN = 0 ∨ s.ringQ = 0) ∧ t = s.raise .configError cmd) ∨
      (s.ringN ≠ 0 ∧ s.ringQ ≠ 0 ∧ body s.ringN s.ringQ = .next t) := by
  unfold withRing at h
  split at h
  · rename_i hc
    exact .inl ⟨hc, by simpa using h.symm⟩
  · rename_i hc
    exact .inr ⟨fun hn => hc (.inl hn), fun hq => hc (.inr hq), h⟩

theorem withRing_configured {body : Imm → Word → Result} (hn : s.ringN ≠ 0) (hq : s.ringQ ≠ 0) :
    withRing cmd s body = body s.ringN s.ringQ :=
  if_neg (not_or.2 ⟨hn, hq⟩)

theorem withRing_unconfigured {body : Imm → Word → Result} (h : s.ringN = 0 ∨ s.ringQ = 0) :
    withRing cmd s body = .next (s.raise .configError cmd) := if_pos h

/-- A source register is invalid, or its element is handed on (41_ring_arithmetic.md R81). -/
theorem withSource_next {ra : Reg} {body : Element → Result} (h : withSource cmd ra s body = .next t) :
    (s.readReg ra = none ∧ t = s.raise .uninitOperand cmd) ∨
      ∃ a, s.readReg ra = some a ∧ body a = .next t := by
  unfold withSource at h
  split at h
  · rename_i hr
    exact .inl ⟨hr, by simpa using h.symm⟩
  · rename_i a hr
    exact .inr ⟨a, hr, h⟩

theorem withSource_valid {ra : Reg} {a : Element} {body : Element → Result} (h : s.readReg ra = some a) :
    withSource cmd ra s body = body a := by
  simp [withSource, h]

theorem withSource_invalid {ra : Reg} {body : Element → Result} (h : s.readReg ra = none) :
    withSource cmd ra s body = .next (s.raise .uninitOperand cmd) := by
  simp [withSource, h]

/-- Two sources: one is invalid, the tags differ, or both elements are handed on (41_ring_arithmetic.md R80). -/
theorem withSources_next {ra rb : Reg} {body : Element → Element → Result}
    (h : withSources cmd ra rb s body = .next t) :
    ((s.readReg ra = none ∨ s.readReg rb = none) ∧ t = s.raise .uninitOperand cmd) ∨
      ∃ a b, s.readReg ra = some a ∧ s.readReg rb = some b ∧
        ((¬(a.n = b.n ∧ a.q = b.q) ∧ t = s.raise .dimensionMismatch cmd) ∨
          (a.n = b.n ∧ a.q = b.q ∧ body a b = .next t)) := by
  rcases withSource_next h with ⟨ha, ht⟩ | ⟨a, ha, h⟩
  · exact .inl ⟨.inl ha, ht⟩
  rcases withSource_next h with ⟨hb, ht⟩ | ⟨b, hb, h⟩
  · exact .inl ⟨.inr hb, ht⟩
  refine .inr ⟨a, b, ha, hb, ?_⟩
  split at h
  · rename_i hc
    exact .inr ⟨hc.1, hc.2, h⟩
  · rename_i hc
    exact .inl ⟨hc, by simpa using h.symm⟩

theorem withSources_valid {ra rb : Reg} {a b : Element} {body : Element → Element → Result}
    (ha : s.readReg ra = some a) (hb : s.readReg rb = some b) (hn : a.n = b.n) (hq : a.q = b.q) :
    withSources cmd ra rb s body = body a b := by
  simp [withSources, withSource_valid ha, withSource_valid hb, hn, hq]

/-- The command holds for want of DIN words, or takes the oldest m (20_memory.md R33). -/
theorem withDin_next {m : Nat} {body : List Word → State → Result} (h : withDin cmd m s body = .next t) :
    (s.din.length < m ∧ t = s.hold cmd) ∨
      (m ≤ s.din.length ∧ body (s.din.take m) (s.dropDin m) = .next t) := by
  unfold withDin at h
  split at h
  · rename_i hc
    exact .inl ⟨hc, by simpa using h.symm⟩
  · rename_i hc
    exact .inr ⟨by omega, h⟩

theorem withDin_enough {m : Nat} {body : List Word → State → Result} (h : m ≤ s.din.length) :
    withDin cmd m s body = body (s.din.take m) (s.dropDin m) := if_neg (by omega)

theorem withDin_short {m : Nat} {body : List Word → State → Result} (h : s.din.length < m) :
    withDin cmd m s body = .next (s.hold cmd) := if_pos h

/-- A command that completes writes its destination and lowers BUSY, and changes nothing else. -/
theorem complete_eq (rd : Reg) (e : Element) (s : State) :
    complete rd e s = .next { s with p := s.p.set rd (some e), cur := none } := rfl

/-- A next state that comes of reading the message comes of the message (43_encoder.md R115). -/
theorem withMessage_next {body : List Byte → Result} (h : withMessage s body = .next t) :
    ∃ m, s.message = some m ∧ body m = .next t := by
  unfold withMessage at h
  split at h
  · simp at h
  · rename_i m hm
    exact ⟨m, hm, h⟩

theorem withMessage_present {m : List Byte} {body : List Byte → Result} (h : s.message = some m) :
    withMessage s body = body m := by
  simp [withMessage, h]

/-- A sampler completes, faults with its words drawn, or holds (42_sampler.md R100). -/
theorem finishDraw_next {rd : Reg} {n : Imm} {q : Word} {d : Draw (List Word)}
    (h : finishDraw cmd rd n q s d = .next t) :
    (∃ c rest, d = .got c rest ∧ t = ((s.setEnt rest).writeReg rd ⟨n, q, c⟩).finish) ∨
      (∃ why rest, d = .fails why rest ∧ t = (s.setEnt rest).raise why cmd) ∨
      (d = .waits ∧ t = s.hold cmd) := by
  cases d with
  | got c rest => exact .inl ⟨c, rest, rfl, by simpa [finishDraw, complete] using h.symm⟩
  | fails why rest => exact .inr (.inl ⟨why, rest, rfl, by simpa [finishDraw] using h.symm⟩)
  | waits => exact .inr (.inr ⟨rfl, by simpa [finishDraw] using h.symm⟩)

/-- A sampler always answers a next state. -/
theorem finishDraw_isNext (cmd : Cmd) (rd : Reg) (n : Imm) (q : Word) (s : State) (d : Draw (List Word)) :
    ∃ t, finishDraw cmd rd n q s d = .next t := by
  cases d <;> exact ⟨_, rfl⟩

/-- A command word is discarded, is illegal, or runs its command (60_exceptions.md R144, R147). -/
theorem runCommand_next {w : Cmd} (h : runCommand w s = .next t) :
    (s.fault = true ∧ w ≠ clrfWord ∧ t = s.finish) ∨
      (¬(s.fault = true ∧ w ≠ clrfWord) ∧
        ((∃ why, decode w = .illegal why ∧ t = s.raise .illegalCommand w) ∨
          ∃ i, decode w = .instr i ∧ exec i s = .next t)) := by
  unfold runCommand at h
  split at h
  · rename_i hc
    exact .inl ⟨hc.1, hc.2, by simpa using h.symm⟩
  · rename_i hc
    refine .inr ⟨hc, ?_⟩
    split at h
    · rename_i why hw
      exact .inl ⟨why, hw, by simpa using h.symm⟩
    · rename_i i hw
      exact .inr ⟨i, hw, h⟩

/-- A step is the reset, the command in progress again, the next command offered, or idling (20_memory.md R32, R42). -/
theorem engineStep_next (h : engineStep s = .next t) :
    (s.rstIn = true ∧ t = s.afterReset) ∨
      (s.rstIn = false ∧
        ((∃ w, s.cur = some w ∧ runCommand w s = .next t) ∨
          (s.cur = none ∧ s.cmdIn = [] ∧ t = s) ∨
          ∃ w rest, s.cur = none ∧ s.cmdIn = w :: rest ∧
            runCommand w { s with cur := some w, cmdIn := rest } = .next t)) := by
  unfold engineStep at h
  split at h
  · rename_i hr
    exact .inl ⟨hr, by simpa using h.symm⟩
  · rename_i hr
    refine .inr ⟨by simpa using hr, ?_⟩
    split at h
    · rename_i w hcur
      exact .inl ⟨w, hcur, h⟩
    · rename_i hcur hin
      exact .inr (.inl ⟨hcur, hin, by simpa using h.symm⟩)
    · rename_i w rest hcur hin
      exact .inr (.inr ⟨w, rest, hcur, hin, h⟩)

end Sys2Proof.Machine
end

