-- ==== Sys2Proof/Laws/Exec.lean ====
section
/-! SUPPORT. What each command can do, said once: when its meaning answers a next state, that state is one of these. A proof
about every command takes `cases i` and one of these lemmas per constructor. -/

namespace Sys2Proof.Machine

variable {s t : State}

/-- SETN takes the dimension or raises CONFIG_ERROR (44_config_control.md R127). -/
theorem execSetn_next {imm : Imm} (h : execSetn imm s = .next t) :
    (legalDimension s.params.nMax imm = true ∧ t = { s with ringN := imm }.finish) ∨
      (legalDimension s.params.nMax imm = false ∧ t = s.raise .configError (encode (.setn imm))) := by
  unfold execSetn at h
  split at h
  · rename_i hl
    exact .inl ⟨hl, by simpa using h.symm⟩
  · rename_i hl
    exact .inr ⟨by simpa using hl, by simpa using h.symm⟩

/-- SETQ holds, takes the modulus, or raises CONFIG_ERROR with the word consumed (44_config_control.md R128). -/
theorem execSetq_next (h : execSetq s = .next t) :
    (s.din = [] ∧ t = s.hold (encode .setq)) ∨
      ∃ w rest, s.din = w :: rest ∧
        ((legalModulus w = true ∧ t = { s with din := rest, ringQ := w }.finish) ∨
          (legalModulus w = false ∧ t = { s with din := rest }.raise .configError (encode .setq))) := by
  unfold execSetq at h
  split at h
  · rename_i hd
    exact .inl ⟨hd, by simpa using h.symm⟩
  · rename_i w rest hd
    refine .inr ⟨w, rest, hd, ?_⟩
    split at h
    · rename_i hl
      exact .inl ⟨hl, by simpa using h.symm⟩
    · rename_i hl
      exact .inr ⟨by simpa using hl, by simpa using h.symm⟩

/-- SETK holds or takes the scalar (44_config_control.md R129). -/
theorem execSetk_next (h : execSetk s = .next t) :
    (s.din = [] ∧ t = s.hold (encode .setk)) ∨
      ∃ w rest, s.din = w :: rest ∧ t = { s with din := rest, k := w }.finish := by
  unfold execSetk at h
  split at h
  · rename_i hd
    exact .inl ⟨hd, by simpa using h.symm⟩
  · rename_i w rest hd
    exact .inr ⟨w, rest, hd, by simpa using h.symm⟩

/-- ZERO faults unconfigured, or writes the zero element (40_element_transfer.md R70, R71). -/
theorem execZero_next {rd : Reg} (h : execZero rd s = .next t) :
    ((s.ringN = 0 ∨ s.ringQ = 0) ∧ t = s.raise .configError (encode (.zero rd))) ∨
      (s.ringN ≠ 0 ∧ s.ringQ ≠ 0 ∧
        t = (s.writeReg rd ⟨s.ringN, s.ringQ, List.replicate s.ringN.toNat 0⟩).finish) := by
  rcases withRing_next h with h | ⟨hn, hq, h⟩
  · exact .inl h
  · exact .inr ⟨hn, hq, by simpa [complete] using h.symm⟩

/-- LOAD faults for want of configuration or a right count, holds, or completes (40_element_transfer.md R72). -/
theorem execLoad_next {rd : Reg} {imm : Imm} (h : execLoad rd imm s = .next t) :
    ((s.ringN = 0 ∨ s.ringQ = 0) ∧ t = s.raise .configError (encode (.load rd imm))) ∨
      (s.ringN ≠ 0 ∧ s.ringQ ≠ 0 ∧
        ((imm ≠ s.ringN ∧ t = s.raise .sizeMismatch (encode (.load rd imm))) ∨
          (imm = s.ringN ∧ s.din.length < s.ringN.toNat ∧ t = s.hold (encode (.load rd imm))) ∨
          (imm = s.ringN ∧ s.ringN.toNat ≤ s.din.length ∧
            t = ((s.dropDin s.ringN.toNat).writeReg rd
              ⟨s.ringN, s.ringQ, (s.din.take s.ringN.toNat).map fun w => coeff w.toInt s.ringQ⟩).finish))) := by
  rcases withRing_next h with h | ⟨hn, hq, h⟩
  · exact .inl h
  refine .inr ⟨hn, hq, ?_⟩
  split at h
  · rename_i hi
    exact .inl ⟨hi, by simpa using h.symm⟩
  · rename_i hi
    rcases withDin_next h with ⟨hd, h⟩ | ⟨hd, h⟩
    · exact .inr (.inl ⟨by simpa using hi, hd, h⟩)
    · exact .inr (.inr ⟨by simpa using hi, hd, by simpa [complete] using h.symm⟩)

/-- STORE faults on an invalid register, or pushes the coefficients (40_element_transfer.md R73). -/
theorem execStore_next {ra : Reg} (h : execStore ra s = .next t) :
    (s.readReg ra = none ∧ t = s.raise .uninitOperand (encode (.store ra))) ∨
      ∃ a, s.readReg ra = some a ∧ t = (s.pushDout a.c).finish := by
  rcases withSource_next h with h | ⟨a, ha, h⟩
  · exact .inl h
  · exact .inr ⟨a, ha, by simpa using h.symm⟩

/-- SER faults on an invalid register, or pushes tag and coefficients (40_element_transfer.md R74). -/
theorem execSer_next {ra : Reg} (h : execSer ra s = .next t) :
    (s.readReg ra = none ∧ t = s.raise .uninitOperand (encode (.ser ra))) ∨
      ∃ a, s.readReg ra = some a ∧ t = (s.pushDout (serWords a)).finish := by
  rcases withSource_next h with h | ⟨a, ha, h⟩
  · exact .inl h
  · exact .inr ⟨a, ha, by simpa using h.symm⟩

/-- LDMSG faults on a length above MSG_MAX, holds, or sets the message (40_element_transfer.md R75). -/
theorem execLdmsg_next {imm : Imm} (h : execLdmsg imm s = .next t) :
    (s.params.msgMax < imm.toNat ∧ t = s.raise .messageTooLong (encode (.ldmsg imm))) ∨
      (imm.toNat ≤ s.params.msgMax ∧
        ((s.din.length < messageWords imm.toNat ∧ t = s.hold (encode (.ldmsg imm))) ∨
          (messageWords imm.toNat ≤ s.din.length ∧
            t = ((s.dropDin (messageWords imm.toNat)).setMessage
              (unpackBytes imm.toNat (s.din.take (messageWords imm.toNat)))).finish))) := by
  unfold execLdmsg at h
  split at h
  · rename_i hm
    exact .inl ⟨hm, by simpa using h.symm⟩
  · rename_i hm
    refine .inr ⟨by omega, ?_⟩
    rcases withDin_next h with ⟨hd, h⟩ | ⟨hd, h⟩
    · exact .inl ⟨hd, h⟩
    · exact .inr ⟨hd, by simpa using h.symm⟩

/-- What a two-source command does: one of the faults of 41_ring_arithmetic.md R80, or `f a b` under the common tag. -/
theorem twoSource_next {cmd : Cmd} {rd ra rb : Reg} {f : Element → Element → List Word}
    (h : withSources cmd ra rb s (fun a b => complete rd ⟨a.n, a.q, f a b⟩ s) = .next t) :
    ((s.readReg ra = none ∨ s.readReg rb = none) ∧ t = s.raise .uninitOperand cmd) ∨
      ∃ a b, s.readReg ra = some a ∧ s.readReg rb = some b ∧
        ((¬(a.n = b.n ∧ a.q = b.q) ∧ t = s.raise .dimensionMismatch cmd) ∨
          (a.n = b.n ∧ a.q = b.q ∧ t = (s.writeReg rd ⟨a.n, a.q, f a b⟩).finish)) := by
  rcases withSources_next h with h | ⟨a, b, ha, hb, h | ⟨hn, hq, h⟩⟩
  · exact .inl h
  · exact .inr ⟨a, b, ha, hb, .inl h⟩
  · exact .inr ⟨a, b, ha, hb, .inr ⟨hn, hq, by simpa [complete] using h.symm⟩⟩

/-- What a one-source command does: the fault of 41_ring_arithmetic.md R81, or `f a` under the source's tag. -/
theorem oneSource_next {cmd : Cmd} {rd ra : Reg} {f : Element → List Word}
    (h : withSource cmd ra s (fun a => complete rd ⟨a.n, a.q, f a⟩ s) = .next t) :
    (s.readReg ra = none ∧ t = s.raise .uninitOperand cmd) ∨
      ∃ a, s.readReg ra = some a ∧ t = (s.writeReg rd ⟨a.n, a.q, f a⟩).finish := by
  rcases withSource_next h with h | ⟨a, ha, h⟩
  · exact .inl h
  · exact .inr ⟨a, ha, by simpa [complete] using h.symm⟩

theorem execAdd_next {rd ra rb : Reg} (h : execAdd rd ra rb s = .next t) :
    ((s.readReg ra = none ∨ s.readReg rb = none) ∧ t = s.raise .uninitOperand (encode (.add rd ra rb))) ∨
      ∃ a b, s.readReg ra = some a ∧ s.readReg rb = some b ∧
        ((¬(a.n = b.n ∧ a.q = b.q) ∧ t = s.raise .dimensionMismatch (encode (.add rd ra rb))) ∨
          (a.n = b.n ∧ a.q = b.q ∧ t = (s.writeReg rd ⟨a.n, a.q, addCoeffs a.q a.c b.c⟩).finish)) :=
  twoSource_next (f := fun a b => addCoeffs a.q a.c b.c) h

theorem execSub_next {rd ra rb : Reg} (h : execSub rd ra rb s = .next t) :
    ((s.readReg ra = none ∨ s.readReg rb = none) ∧ t = s.raise .uninitOperand (encode (.sub rd ra rb))) ∨
      ∃ a b, s.readReg ra = some a ∧ s.readReg rb = some b ∧
        ((¬(a.n = b.n ∧ a.q = b.q) ∧ t = s.raise .dimensionMismatch (encode (.sub rd ra rb))) ∨
          (a.n = b.n ∧ a.q = b.q ∧ t = (s.writeReg rd ⟨a.n, a.q, subCoeffs a.q a.c b.c⟩).finish)) :=
  twoSource_next (f := fun a b => subCoeffs a.q a.c b.c) h

theorem execMul_next {rd ra rb : Reg} (h : execMul rd ra rb s = .next t) :
    ((s.readReg ra = none ∨ s.readReg rb = none) ∧ t = s.raise .uninitOperand (encode (.mul rd ra rb))) ∨
      ∃ a b, s.readReg ra = some a ∧ s.readReg rb = some b ∧
        ((¬(a.n = b.n ∧ a.q = b.q) ∧ t = s.raise .dimensionMismatch (encode (.mul rd ra rb))) ∨
          (a.n = b.n ∧ a.q = b.q ∧
            t = (s.writeReg rd ⟨a.n, a.q, mulCoeffs a.n.toNat a.q a.c b.c⟩).finish)) :=
  twoSource_next (f := fun a b => mulCoeffs a.n.toNat a.q a.c b.c) h

theorem execNeg_next {rd ra : Reg} (h : execNeg rd ra s = .next t) :
    (s.readReg ra = none ∧ t = s.raise .uninitOperand (encode (.neg rd ra))) ∨
      ∃ a, s.readReg ra = some a ∧ t = (s.writeReg rd ⟨a.n, a.q, negCoeffs a.q a.c⟩).finish :=
  oneSource_next (f := fun a => negCoeffs a.q a.c) h

theorem execSmul_next {rd ra : Reg} (h : execSmul rd ra s = .next t) :
    (s.readReg ra = none ∧ t = s.raise .uninitOperand (encode (.smul rd ra))) ∨
      ∃ a, s.readReg ra = some a ∧ t = (s.writeReg rd ⟨a.n, a.q, smulCoeffs a.q s.k a.c⟩).finish :=
  oneSource_next (f := fun a => smulCoeffs a.q s.k a.c) h

theorem execSignal_next {rd ra : Reg} (h : execSignal rd ra s = .next t) :
    (s.readReg ra = none ∧ t = s.raise .uninitOperand (encode (.signal rd ra))) ∨
      ∃ a, s.readReg ra = some a ∧ t = (s.writeReg rd ⟨a.n, a.q, a.c.map (signalCoeff a.q)⟩).finish :=
  oneSource_next (f := fun a => a.c.map (signalCoeff a.q)) h

/-- SAMPU faults unconfigured, or does what its draws come to (42_sampler.md R101). -/
theorem execSampu_next {rd : Reg} (h : execSampu rd s = .next t) :
    ((s.ringN = 0 ∨ s.ringQ = 0) ∧ t = s.raise .configError (encode (.sampu rd))) ∨
      (s.ringN ≠ 0 ∧ s.ringQ ≠ 0 ∧
        finishDraw (encode (.sampu rd)) rd s.ringN s.ringQ s
          (drawMany (drawBelow s.ringQ.toNat (bitlen (s.ringQ.toNat - 1)) s.params.rejectLimit 0)
            s.ringN.toNat s.ent) = .next t) :=
  withRing_next h

/-- SAMPG, with any GAUSS, faults unconfigured, or does what its draws come to (42_sampler.md R104). -/
theorem sampgWith_next {g : Word → Word → Imm → Int} {rd : Reg} (h : sampgWith g rd s = .next t) :
    ((s.ringN = 0 ∨ s.ringQ = 0) ∧ t = s.raise .configError (encode (.sampg rd))) ∨
      (s.ringN ≠ 0 ∧ s.ringQ ≠ 0 ∧
        finishDraw (encode (.sampg rd)) rd s.ringN s.ringQ s
          (drawMany (drawGauss g s.ringQ s.sigma) s.ringN.toNat s.ent) = .next t) :=
  withRing_next h

/-- ENCH, with any HASH, faults unconfigured, holds for the hash port, or completes (43_encoder.md R116). -/
theorem enchWith_next {hash : List Byte → Config.Digest} {rd : Reg} (h : enchWith hash rd s = .next t) :
    ((s.ringN = 0 ∨ s.ringQ = 0) ∧ t = s.raise .configError (encode (.ench rd))) ∨
      (s.ringN ≠ 0 ∧ s.ringQ ≠ 0 ∧
        ((s.hashWaits = true ∧ t = s.hold (encode (.ench rd))) ∨
          (s.hashWaits = false ∧ ∃ m, s.message = some m ∧
            t = (s.writeReg rd
              ⟨s.ringN, s.ringQ, enchCoeffs hash s.params.ctrEndian s.ringN.toNat s.ringQ m⟩).finish))) := by
  rcases withRing_next h with h | ⟨hn, hq, h⟩
  · exact .inl h
  refine .inr ⟨hn, hq, ?_⟩
  split at h
  · rename_i hw
    exact .inl ⟨hw, by simpa using h.symm⟩
  · rename_i hw
    obtain ⟨m, hm, h⟩ := withMessage_next h
    exact .inr ⟨by simpa using hw, m, hm, by simpa [complete] using h.symm⟩

/-- ENCR faults unconfigured or on a message too long, or completes (43_encoder.md R119). -/
theorem execEncr_next {rd : Reg} (h : execEncr rd s = .next t) :
    ((s.ringN = 0 ∨ s.ringQ = 0) ∧ t = s.raise .configError (encode (.encr rd))) ∨
      (s.ringN ≠ 0 ∧ s.ringQ ≠ 0 ∧
        (((s.ringN.toNat < 8 * s.msgLen.toNat ∧ s.params.encrOverlen = .fault) ∧
            t = s.raise .messageTooLong (encode (.encr rd))) ∨
          (¬(s.ringN.toNat < 8 * s.msgLen.toNat ∧ s.params.encrOverlen = .fault) ∧ ∃ m, s.message = some m ∧
            t = (s.writeReg rd ⟨s.ringN, s.ringQ, encrCoeffs s.ringN.toNat m⟩).finish))) := by
  rcases withRing_next h with h | ⟨hn, hq, h⟩
  · exact .inl h
  refine .inr ⟨hn, hq, ?_⟩
  split at h
  · rename_i hl
    exact .inl ⟨hl, by simpa using h.symm⟩
  · rename_i hl
    obtain ⟨m, hm, h⟩ := withMessage_next h
    exact .inr ⟨hl, m, hm, by simpa [complete] using h.symm⟩

end Sys2Proof.Machine
end

