-- ==== Sys2Proof/Laws/PerInstr.lean ====
section
/-! SUPPORT. A statement about every command as syntax: its encoded word carries its own opcode in bits 31:24
(30_encoding.md R54). -/

namespace Sys2Proof.Laws.OwnOpcode

/-- The `op` value R54 gives a command. -/
def opcodeOf : Instr → Nat
  | .nop => 0x01
  | .clrf => 0x02
  | .setn _ => 0x10
  | .setq => 0x11
  | .setk => 0x12
  | .setsig _ => 0x13
  | .zero _ => 0x20
  | .load _ _ => 0x21
  | .store _ => 0x22
  | .ser _ => 0x23
  | .ldmsg _ => 0x24
  | .add _ _ _ => 0x30
  | .sub _ _ _ => 0x31
  | .neg _ _ => 0x32
  | .mul _ _ _ => 0x33
  | .smul _ _ => 0x34
  | .signal _ _ => 0x35
  | .sampu _ => 0x40
  | .sampg _ => 0x41
  | .ench _ => 0x50
  | .encr _ => 0x51

/-- The command's word has the command's opcode in its `op` field. -/
def Statement (i : Instr) : Prop := opField (encode i) = opcodeOf i

theorem nop : Statement .nop := rfl
theorem clrf : Statement .clrf := rfl
theorem setn (imm : Imm) : Statement (.setn imm) := (encodeI_fields (by decide) 0 imm).1
theorem setq : Statement .setq := rfl
theorem setk : Statement .setk := rfl
theorem setsig (imm : Imm) : Statement (.setsig imm) := (encodeI_fields (by decide) 0 imm).1
theorem zero (rd : Reg) : Statement (.zero rd) := (encodeR_fields (by decide) rd 0 0).1
theorem load (rd : Reg) (imm : Imm) : Statement (.load rd imm) := (encodeI_fields (by decide) rd imm).1
theorem store (ra : Reg) : Statement (.store ra) := (encodeR_fields (by decide) 0 ra 0).1
theorem ser (ra : Reg) : Statement (.ser ra) := (encodeR_fields (by decide) 0 ra 0).1
theorem ldmsg (imm : Imm) : Statement (.ldmsg imm) := (encodeI_fields (by decide) 0 imm).1
theorem add (rd ra rb : Reg) : Statement (.add rd ra rb) := (encodeR_fields (by decide) rd ra rb).1
theorem sub (rd ra rb : Reg) : Statement (.sub rd ra rb) := (encodeR_fields (by decide) rd ra rb).1
theorem neg (rd ra : Reg) : Statement (.neg rd ra) := (encodeR_fields (by decide) rd ra 0).1
theorem mul (rd ra rb : Reg) : Statement (.mul rd ra rb) := (encodeR_fields (by decide) rd ra rb).1
theorem smul (rd ra : Reg) : Statement (.smul rd ra) := (encodeR_fields (by decide) rd ra 0).1
theorem signal (rd ra : Reg) : Statement (.signal rd ra) := (encodeR_fields (by decide) rd ra 0).1
theorem sampu (rd : Reg) : Statement (.sampu rd) := (encodeR_fields (by decide) rd 0 0).1
theorem sampg (rd : Reg) : Statement (.sampg rd) := (encodeR_fields (by decide) rd 0 0).1
theorem ench (rd : Reg) : Statement (.ench rd) := (encodeR_fields (by decide) rd 0 0).1
theorem encr (rd : Reg) : Statement (.encr rd) := (encodeR_fields (by decide) rd 0 0).1

end Sys2Proof.Laws.OwnOpcode
end

