-- ==== Sys2Proof/Laws/Step.lean ====
section
/-! SUPPORT. What any command can do, said once (`exec_cases`), and what any step can do (`step_cases`): a claim over all
commands or all steps is three short cases from these. Then what each shared operation keeps of the invariant. -/

namespace Sys2Proof.Machine

/-- A command whose effect waits for a port (70_reset_and_hazards.md R179). -/
def CanWait (i : Instr) : Prop :=
  i = .setq ∨ i = .setk ∨ (∃ imm, i = .ldmsg imm) ∨
    ∃ rd, (∃ imm, i = .load rd imm) ∨ i = .sampu rd ∨ i = .sampg rd ∨ i = .ench rd

/-- `t` is `s` after command `i` raised one of its faults: the traces of 60_exceptions.md R145 and no other. -/
structure Faulted (i : Instr) (s t : State) : Prop where
  next : ∃ x ∈ causesOf i,
    t = { s with fault := true, cause := x, fcmd := encode i, cur := none, din := t.din, ent := t.ent }
  din : i ≠ .setq → t.din = s.din
  popped : i = .setq → ∃ w, s.din = w :: t.din
  ent : (∀ rd, i ≠ .sampu rd ∧ i ≠ .sampg rd) → t.ent = s.ent
  drawn : t.ent <:+ s.ent

/-- What holds of `t` when command `i` completed in `s`. -/
structure Completed (i : Instr) (s t : State) : Prop where
  cur : t.cur = none
  fault : i ≠ .clrf → t.fault = s.fault ∧ t.cause = s.cause ∧ t.fcmd = s.fcmd
  ports : t.cmdIn = s.cmdIn ∧ t.params = s.params ∧ t.hashWaits = s.hashWaits ∧ t.rstIn = s.rstIn
  dout : s.dout <+: t.dout
  others : ∀ r, destination i ≠ some r → t.readReg r = s.readReg r
  written : ∀ r, destination i = some r → ∃ e, t.readReg r = some e
  k : t.k = s.k ∨ i = .setk
  sigma : t.sigma = s.sigma ∨ ∃ imm, i = .setsig imm
  ringN : t.ringN = s.ringN ∨ ∃ imm, i = .setn imm
  ringQ : t.ringQ = s.ringQ ∨ i = .setq
  message : (t.msgLen = s.msgLen ∧ t.msgbuf = s.msgbuf) ∨ ∃ imm, i = .ldmsg imm

/-- A fault that leaves no trace but itself. -/
theorem Faulted.raise {i : Instr} {s : State} {x : Cause} (hx : x ∈ causesOf i) (hi : i ≠ .setq) :
    Faulted i s (s.raise x (encode i)) :=
  ⟨⟨x, hx, rfl⟩, fun _ => rfl, fun h => absurd h hi, fun _ => rfl, List.suffix_rfl⟩

/-- A sampler's fault, with the drawn words lost. -/
theorem Faulted.drawRaise {i : Instr} {s : State} {x : Cause} {rest : List EntropyAnswer} (hx : x ∈ causesOf i)
    (hi : ∃ rd, i = .sampu rd ∨ i = .sampg rd) (hr : rest <:+ s.ent) :
    Faulted i s ((s.setEnt rest).raise x (encode i)) :=
  ⟨⟨x, hx, rfl⟩, fun _ => rfl, fun h => by subst h; simp at hi,
    fun h => by obtain ⟨rd, h'⟩ := hi; exact absurd h' (by simp [(h rd).1, (h rd).2]), hr⟩

/-- Writing the destination and finishing, from a state that differs from `s` in DIN and the entropy port only. -/
theorem Completed.write {i : Instr} {s s' : State} {rd : Reg} {e : Element} (hd : destination i = some rd)
    (hs : s' = { s with din := s'.din, ent := s'.ent }) : Completed i s (s'.writeReg rd e).finish := by
  rw [hs]
  exact {
    cur := rfl
    fault := fun _ => ⟨rfl, rfl, rfl⟩
    ports := ⟨rfl, rfl, rfl, rfl⟩
    dout := List.prefix_rfl
    others := fun r hr => State.readReg_writeReg_other _ _ _ _ (fun h => hr (h ▸ hd))
    written := fun r hr => by
      obtain rfl : rd = r := by rw [hd] at hr; exact Option.some.inj hr
      exact ⟨e, State.readReg_writeReg_same _ _ _⟩
    k := .inl rfl
    sigma := .inl rfl
    ringN := .inl rfl
    ringQ := .inl rfl
    message := .inl ⟨rfl, rfl⟩ }

/-- Whatever the command, when its meaning answers a next state the command holds, or faults, or completes. -/
theorem exec_cases {i : Instr} {s t : State} (h : exec i s = .next t) :
    (t = s.hold (encode i) ∧ CanWait i) ∨ Faulted i s t ∨ Completed i s t := by
  cases i with
  | nop => cases h; exact .inr (.inr (by constructor <;> simp [destination]))
  | clrf => cases h; exact .inr (.inr (by constructor <;> simp [destination]))
  | setn imm =>
    rcases execSetn_next h with ⟨_, rfl⟩ | ⟨_, rfl⟩
    · exact .inr (.inr (by constructor <;> simp [destination, State.readReg]))
    · exact .inr (.inl (.raise (by simp [causesOf]) (by simp)))
  | setq =>
    rcases execSetq_next h with ⟨_, rfl⟩ | ⟨w, rest, hd, ⟨_, rfl⟩ | ⟨_, rfl⟩⟩
    · exact .inl ⟨rfl, by simp [CanWait]⟩
    · exact .inr (.inr (by constructor <;> simp [destination, State.readReg]))
    · exact .inr (.inl ⟨⟨_, by simp [causesOf], rfl⟩, by simp, fun _ => ⟨w, hd⟩, by simp, by simp⟩)
  | setk =>
    rcases execSetk_next h with ⟨_, rfl⟩ | ⟨w, rest, hd, rfl⟩
    · exact .inl ⟨rfl, by simp [CanWait]⟩
    · exact .inr (.inr (by constructor <;> simp [destination, State.readReg]))
  | setsig imm => cases h; exact .inr (.inr (by constructor <;> simp [destination, State.readReg]))
  | zero rd =>
    rcases execZero_next h with ⟨_, rfl⟩ | ⟨_, _, rfl⟩
    · exact .inr (.inl (.raise (by simp [causesOf]) (by simp)))
    · exact .inr (.inr (.write rfl rfl))
  | load rd imm =>
    rcases execLoad_next h with ⟨_, rfl⟩ | ⟨_, _, ⟨_, rfl⟩ | ⟨_, _, rfl⟩ | ⟨_, _, rfl⟩⟩
    · exact .inr (.inl (.raise (by simp [causesOf]) (by simp)))
    · exact .inr (.inl (.raise (by simp [causesOf]) (by simp)))
    · exact .inl ⟨rfl, by simp [CanWait]⟩
    · exact .inr (.inr (.write rfl rfl))
  | store ra =>
    rcases execStore_next h with ⟨_, rfl⟩ | ⟨a, ha, rfl⟩
    · exact .inr (.inl (.raise (by simp [causesOf]) (by simp)))
    · exact .inr (.inr (by constructor <;> simp [destination]))
  | ser ra =>
    rcases execSer_next h with ⟨_, rfl⟩ | ⟨a, ha, rfl⟩
    · exact .inr (.inl (.raise (by simp [causesOf]) (by simp)))
    · exact .inr (.inr (by constructor <;> simp [destination]))
  | ldmsg imm =>
    rcases execLdmsg_next h with ⟨_, rfl⟩ | ⟨_, ⟨_, rfl⟩ | ⟨_, rfl⟩⟩
    · exact .inr (.inl (.raise (by simp [causesOf]) (by simp)))
    · exact .inl ⟨rfl, by simp [CanWait]⟩
    · exact .inr (.inr (by constructor <;> simp [destination]))
  | add rd ra rb =>
    rcases execAdd_next h with ⟨_, rfl⟩ | ⟨a, b, _, _, ⟨_, rfl⟩ | ⟨_, _, rfl⟩⟩
    · exact .inr (.inl (.raise (by simp [causesOf]) (by simp)))
    · exact .inr (.inl (.raise (by simp [causesOf]) (by simp)))
    · exact .inr (.inr (.write rfl rfl))
  | sub rd ra rb =>
    rcases execSub_next h with ⟨_, rfl⟩ | ⟨a, b, _, _, ⟨_, rfl⟩ | ⟨_, _, rfl⟩⟩
    · exact .inr (.inl (.raise (by simp [causesOf]) (by simp)))
    · exact .inr (.inl (.raise (by simp [causesOf]) (by simp)))
    · exact .inr (.inr (.write rfl rfl))
  | mul rd ra rb =>
    rcases execMul_next h with ⟨_, rfl⟩ | ⟨a, b, _, _, ⟨_, rfl⟩ | ⟨_, _, rfl⟩⟩
    · exact .inr (.inl (.raise (by simp [causesOf]) (by simp)))
    · exact .inr (.inl (.raise (by simp [causesOf]) (by simp)))
    · exact .inr (.inr (.write rfl rfl))
  | neg rd ra =>
    rcases execNeg_next h with ⟨_, rfl⟩ | ⟨a, _, rfl⟩
    · exact .inr (.inl (.raise (by simp [causesOf]) (by simp)))
    · exact .inr (.inr (.write rfl rfl))
  | smul rd ra =>
    rcases execSmul_next h with ⟨_, rfl⟩ | ⟨a, _, rfl⟩
    · exact .inr (.inl (.raise (by simp [causesOf]) (by simp)))
    · exact .inr (.inr (.write rfl rfl))
  | signal rd ra =>
    rcases execSignal_next h with ⟨_, rfl⟩ | ⟨a, _, rfl⟩
    · exact .inr (.inl (.raise (by simp [causesOf]) (by simp)))
    · exact .inr (.inr (.write rfl rfl))
  | sampu rd =>
    rcases execSampu_next h with ⟨_, rfl⟩ | ⟨_, _, h⟩
    · exact .inr (.inl (.raise (by simp [causesOf]) (by simp)))
    have ok := drawMany_ok (drawBelow_ok s.ringQ.toNat (bitlen (s.ringQ.toNat - 1)) s.params.rejectLimit 0
      s.ringQ.isLt) s.ringN.toNat s.ent
    rcases finishDraw_next h with ⟨c, rest, _, rfl⟩ | ⟨why, rest, hd, rfl⟩ | ⟨_, rfl⟩
    · exact .inr (.inr (.write rfl rfl))
    · have := ok.fails _ _ hd
      exact .inr (.inl (.drawRaise (List.mem_cons_of_mem _ this.1) ⟨rd, .inl rfl⟩ this.2))
    · exact .inl ⟨rfl, by simp [CanWait]⟩
  | sampg rd =>
    rcases sampgWith_next h with ⟨_, rfl⟩ | ⟨_, hq, h⟩
    · exact .inr (.inl (.raise (by simp [causesOf]) (by simp)))
    have ok := drawMany_ok (drawGauss_ok Config.gauss s.ringQ s.sigma hq) s.ringN.toNat s.ent
    rcases finishDraw_next h with ⟨c, rest, _, rfl⟩ | ⟨why, rest, hd, rfl⟩ | ⟨_, rfl⟩
    · exact .inr (.inr (.write rfl rfl))
    · have := ok.fails _ _ hd
      exact .inr (.inl (.drawRaise (List.mem_cons_of_mem _ this.1) ⟨rd, .inr rfl⟩ this.2))
    · exact .inl ⟨rfl, by simp [CanWait]⟩
  | ench rd =>
    rcases enchWith_next h with ⟨_, rfl⟩ | ⟨_, _, ⟨_, rfl⟩ | ⟨_, m, _, rfl⟩⟩
    · exact .inr (.inl (.raise (by simp [causesOf]) (by simp)))
    · exact .inl ⟨rfl, by simp [CanWait]⟩
    · exact .inr (.inr (.write rfl rfl))
  | encr rd =>
    rcases execEncr_next h with ⟨_, rfl⟩ | ⟨_, _, ⟨_, rfl⟩ | ⟨_, m, _, rfl⟩⟩
    · exact .inr (.inl (.raise (by simp [causesOf]) (by simp)))
    · exact .inr (.inl (.raise (by simp [causesOf]) (by simp)))
    · exact .inr (.inr (.write rfl rfl))

/-- The state in which the word `w` runs: a command in progress runs again, or the head of the CMD port is taken. -/
def Taken (w : Cmd) (s s' : State) : Prop :=
  (s.cur = some w ∧ s' = s) ∨
    ∃ rest, s.cur = none ∧ s.cmdIn = w :: rest ∧ s' = { s with cur := some w, cmdIn := rest }

/-- Taking a word changes BUSY and the CMD port only. -/
theorem Taken.keeps {w : Cmd} {s s' : State} (h : Taken w s s') :
    s' = { s with cur := s'.cur, cmdIn := s'.cmdIn } := by
  rcases h with ⟨_, rfl⟩ | ⟨_, _, _, rfl⟩ <;> rfl

/-- Whatever the state, a step resets, or does nothing, or runs one word. -/
theorem step_cases {s t : State} (h : step s = .next t) :
    (s.rstIn = true ∧ t = s.afterReset) ∨ (s.rstIn = false ∧ s.nextWord = none ∧ t = s) ∨
      (s.rstIn = false ∧ ∃ w s', s.nextWord = some w ∧ Taken w s s' ∧ runCommand w s' = .next t) := by
  rcases engineStep_next h with ⟨hr, rfl⟩ | ⟨hr, ⟨w, hc, h⟩ | ⟨hc, hi, rfl⟩ | ⟨w, rest, hc, hi, h⟩⟩
  · exact .inl ⟨hr, rfl⟩
  · exact .inr (.inr ⟨hr, w, s, by simp [State.nextWord, hc], .inl ⟨hc, rfl⟩, h⟩)
  · exact .inr (.inl ⟨hr, by simp [State.nextWord, hc, hi], rfl⟩)
  · exact .inr (.inr ⟨hr, w, _, by simp [State.nextWord, hc, hi], .inr ⟨rest, hc, hi, rfl⟩, h⟩)

-- What the shared operations keep of the invariant.

/-- The invariant speaks of these fields only. -/
theorem State.Inv.congr {s t : State} (h : s.Inv) (params : t.params = s.params)
    (regs : ∀ r e, t.readReg r = some e → e.WF s.params.nMax) (ringN : t.ringN = s.ringN) (ringQ : t.ringQ = s.ringQ)
    (msgLen : t.msgLen = s.msgLen) (msgbuf : t.msgbuf = s.msgbuf) (noFault : t.fault = false → t.cause = .none ∧ t.fcmd = 0)
    (inFault : t.fault = true → t.cause ≠ .none)
    (inProgress : ∀ w, t.cur = some w → t.fault = false ∧ ∃ i, decode w = .instr i) : t.Inv :=
  ⟨params ▸ h.params, params ▸ regs, by rw [params, ringN]; exact h.ringN, by rw [ringQ]; exact h.ringQ,
    by rw [msgLen, params]; exact h.msgFits, msgbuf ▸ h.msgbuf, by rw [msgbuf, msgLen]; exact h.msgHeld,
    noFault, inFault, inProgress⟩

theorem State.Inv.raise {s : State} (h : s.Inv) (x : Cause) (cmd : Cmd) (hx : x ≠ .none) : (s.raise x cmd).Inv :=
  h.congr rfl h.regs rfl rfl rfl rfl (by simp) (by simpa) (by simp)

theorem State.Inv.finish {s : State} (h : s.Inv) : s.finish.Inv :=
  h.congr rfl h.regs rfl rfl rfl rfl h.noFault h.inFault (by simp)

theorem State.Inv.hold {s : State} (h : s.Inv) (w : Cmd) (hf : s.fault = false) (hw : ∃ i, decode w = .instr i) :
    (s.hold w).Inv :=
  h.congr rfl h.regs rfl rfl rfl rfl h.noFault h.inFault fun w' hw' => by
    obtain rfl : w = w' := by simpa using hw'
    exact ⟨hf, hw⟩

theorem State.Inv.setEnt {s : State} (h : s.Inv) (ent : List EntropyAnswer) : (s.setEnt ent).Inv :=
  h.congr rfl h.regs rfl rfl rfl rfl h.noFault h.inFault h.inProgress

theorem State.Inv.dropDin {s : State} (h : s.Inv) (n : Nat) : (s.dropDin n).Inv :=
  h.congr rfl h.regs rfl rfl rfl rfl h.noFault h.inFault h.inProgress

theorem State.Inv.pushDout {s : State} (h : s.Inv) (ws : List Word) : (s.pushDout ws).Inv :=
  h.congr rfl h.regs rfl rfl rfl rfl h.noFault h.inFault h.inProgress

theorem State.Inv.writeReg {s : State} (h : s.Inv) (r : Reg) (e : Element) (he : e.WF s.params.nMax) :
    (s.writeReg r e).Inv :=
  h.congr rfl (fun r' e' hr' => by
    by_cases hrr : r' = r
    · subst hrr
      rw [State.readReg_writeReg_same] at hr'
      exact Option.some.inj hr' ▸ he
    · rw [State.readReg_writeReg_other _ _ _ _ hrr] at hr'
      exact h.regs _ _ hr') rfl rfl rfl rfl h.noFault h.inFault h.inProgress

end Sys2Proof.Machine
end

