-- ==== Sys2Proof/Laws/Run.lean ====
section
/-! SUPPORT. What a move of a run can do (70_reset_and_hazards.md R180): the program is worked off from its head, popped words are
only added, no move asserts `rst`, and a run that is over stays over: the engine does nothing and the host can only push. -/

namespace Sys2Proof.Machine

/-- A run goes on from where its first moves left it. -/
theorem Run.moves_append (r : Run) (ms ms' : List Mover) :
    r.moves (ms ++ ms') = (r.moves ms).bind fun r' => r'.moves ms' := by
  induction ms generalizing r with
  | nil => rfl
  | cons m ms ih =>
    cases h : r.move m with
    | none => simp [Run.moves, h]
    | some r' => simp [Run.moves, h, ih]

/-- A host action leaves `rst` as it is. -/
theorem State.hostAct_rstIn {s t : State} {a : HostAction} {ws : List Word} (h : s.hostAct a = some (ws, t)) :
    t.rstIn = s.rstIn := by
  cases a with
  | offer w => cases h; rfl
  | push w => cases h; rfl
  | pop =>
    simp only [State.hostAct, State.popDout] at h
    split at h
    · simp at h
    · cases h; rfl

/-- A move of the host does the head of the program and adds what it popped. -/
theorem Run.hostMove_cases {r r' : Run} (h : r.hostMove = some r') :
    ∃ a ws, r.todo = a :: r'.todo ∧ r'.popped = r.popped ++ ws ∧ r.engine.hostAct a = some (ws, r'.engine) := by
  unfold Run.hostMove at h
  split at h
  · simp at h
  · rename_i a rest ht
    simp only [Option.map_eq_some_iff] at h
    obtain ⟨⟨ws, t⟩, hx, rfl⟩ := h
    exact ⟨a, ws, ht, rfl, hx⟩

/-- Leaving an action undone drops a push, with FAULT = 1, and touches nothing else. -/
theorem Run.skipMove_cases {r r' : Run} (h : r.skipMove = some r') :
    r.engine.fault = true ∧ ∃ a, a.isPush = true ∧ r.todo = a :: r'.todo ∧ r' = { r with todo := r'.todo } := by
  unfold Run.skipMove at h
  split at h
  · simp at h
  · rename_i a rest ht
    split at h
    · rename_i hc
      rw [Bool.and_eq_true] at hc
      cases h
      exact ⟨hc.2, a, hc.1, ht, rfl⟩
    · simp at h

/-- A move of the engine is a step, and the program is untouched. -/
theorem Run.engineMove_cases {r r' : Run} (h : r.engineMove = some r') :
    step r.engine = .next r'.engine ∧ r' = { r with engine := r'.engine } := by
  unfold Run.engineMove at h
  split at h
  · rename_i t ht
    cases h
    exact ⟨ht, rfl⟩
  · simp at h

/-- No step asserts `rst`. -/
theorem step_rstIn {s t : State} (h : step s = .next t) : t.rstIn = false := by
  rcases step_cases h with ⟨_, rfl⟩ | ⟨hr, _, rfl⟩ | ⟨hr, w, s', _, hs, h⟩
  · rfl
  · exact hr
  have hs' : s'.rstIn = false := by rw [hs.keeps]; exact hr
  rcases runCommand_next h with ⟨_, _, rfl⟩ | ⟨_, ⟨_, _, rfl⟩ | ⟨i, _, h⟩⟩
  · exact hs'
  · exact hs'
  rcases exec_cases h with ⟨rfl, _⟩ | hf | hc
  · exact hs'
  · obtain ⟨_, _, ht⟩ := hf.next
    rw [ht]
    exact hs'
  · rw [hc.ports.2.2.2]
    exact hs'

/-- The invariant speaks of none of what a host or a port can change. -/
theorem State.Inv.hostAct {s t : State} {a : HostAction} {ws : List Word} (hI : s.Inv)
    (h : s.hostAct a = some (ws, t)) : t.Inv := by
  cases a with
  | offer w => cases h; exact hI.congr rfl hI.regs rfl rfl rfl rfl hI.noFault hI.inFault hI.inProgress
  | push w => cases h; exact hI.congr rfl hI.regs rfl rfl rfl rfl hI.noFault hI.inFault hI.inProgress
  | pop =>
    simp only [State.hostAct, State.popDout] at h
    split at h
    · simp at h
    · cases h; exact hI.congr rfl hI.regs rfl rfl rfl rfl hI.noFault hI.inFault hI.inProgress

/-- In a run that is over a step of the engine changes nothing. -/
theorem Run.over_engineMove {r : Run} (h : r.over) (hr : r.engine.rstIn = false) : r.engineMove = some r := by
  obtain ⟨_, hc, hb⟩ := h
  have hcur : r.engine.cur = none := by simpa [State.busy] using hb
  have hs : step r.engine = .next r.engine := by simp [step, engineStep, hr, hcur, hc]
  simp [Run.engineMove, hs]

/-- A run that is over stays so when the host moves: all it can do is push a word. -/
theorem Run.over_hostMove {r r' : Run} (h : r.over) (hm : r.hostMove = some r') : r'.over := by
  obtain ⟨hp, hc, hb⟩ := h
  obtain ⟨a, ws, ht, _, ha⟩ := Run.hostMove_cases hm
  rw [ht] at hp
  have hpush := hp a List.mem_cons_self
  cases a with
  | offer w => simp [HostAction.isPush] at hpush
  | pop => simp [HostAction.isPush] at hpush
  | push w =>
    simp only [State.hostAct, Option.some.injEq, Prod.mk.injEq] at ha
    refine ⟨fun x hx => hp x (List.mem_cons_of_mem _ hx), ?_, ?_⟩
    · rw [← ha.2]; exact hc
    · rw [← ha.2]; exact hb

/-- A run with a command in progress is not over, so one that holds for ever never is. -/
theorem Run.not_over_of_busy {r : Run} (h : r.engine.busy = true) : ¬r.over := fun ho => by
  rw [ho.2.2] at h
  cases h

end Sys2Proof.Machine
end

