-- ==== Sys2Proof/Tests/Slice0.lean ====
section
/-! SUPPORT. The model's own tests: decoding, well-formedness, one step of each command on the spec's vectors
(95_test_vectors.md and the examples of the rules), and a witness for the hypotheses of every statement. -/

namespace Sys2Proof.Tests

open Sys2Proof.Machine

/-- The next state, when there is one. -/
def after (r : Result) : Option State :=
  match r with
  | .next t => some t
  | _ => none

/-- An element from plain numbers. -/
def el (n q : Nat) (c : List Nat) : Element := ⟨BitVec.ofNat 16 n, BitVec.ofNat 64 q, c.map (BitVec.ofNat 64)⟩

/-- Reset, then configured for the ring (n, q). -/
def ring (n q : Nat) : State := { State.reset with ringN := BitVec.ofNat 16 n, ringQ := BitVec.ofNat 64 q }

/-- Configured, with elements in P1 and P2. -/
def two (a b : Element) : State := ((ring 4 17).writeReg 1 a).writeReg 2 b

/-- What register `r` holds after a command. -/
def regAfter (i : Instr) (s : State) (r : Reg) : Option Element := (after (exec i s)).bind fun t => t.readReg r

/-- FAULT, the cause code and FCMD after a command. -/
def faultAfter (i : Instr) (s : State) : Option (Bool × BitVec 4 × Cmd) :=
  (after (exec i s)).map fun t => (t.fault, t.cause.code, t.fcmd)

-- Well-formedness: each check refuses an ill-formed term.

/-- 95 section 2.1: words that must decode as illegal, each with one reason. -/
theorem test_illegal_words :
    [0x00000000#32, 0xFFFFFFFF#32, 0x03000000#32, 0x36000000#32, 0x01000001#32, 0x02000001#32, 0x11000001#32,
      0x30650001#32, 0x30654000#32, 0x32B48000#32, 0x20C40000#32, 0x22200000#32, 0x40010000#32, 0x21010004#32,
      0x10010004#32].all (fun w => !legalWord w && (decode w == .illegal .unassignedOp
        || decode w == .illegal .mustBeZeroSet)) = true := by decide

/-- R55: each must-be-zero check has a word it refuses, by name. -/
theorem test_must_be_zero :
    decode 0x01000001#32 = .illegal .mustBeZeroSet ∧ decode 0x30650001#32 = .illegal .mustBeZeroSet ∧
    decode 0x32B48000#32 = .illegal .mustBeZeroSet ∧ decode 0x20C40000#32 = .illegal .mustBeZeroSet ∧
    decode 0x22200000#32 = .illegal .mustBeZeroSet ∧ decode 0x22000001#32 = .illegal .mustBeZeroSet ∧
    decode 0x21010004#32 = .illegal .mustBeZeroSet ∧ decode 0x10010004#32 = .illegal .mustBeZeroSet ∧
    decode 0x52000000#32 = .illegal .unassignedOp := by decide

/-- R3, 93 U10: each range has a configuration it refuses. -/
theorem test_params_out_of_range :
    let c := Config.Params.default
    c.wellFormed = true ∧ { c with nMax := 1000 }.wellFormed = false ∧ { c with nMax := 8 }.wellFormed = false ∧
    { c with nMax := 65536 }.wellFormed = false ∧ { c with msgMax := 63 }.wellFormed = false ∧
    { c with msgMax := 65536 }.wellFormed = false ∧ { c with rejectLimit := 0 }.wellFormed = false := by decide

/-- R54: no two rows of the opcode map share their op byte, so no word matches two. -/
theorem test_opcode_map_disjoint :
    opcodeMap.length = 21 ∧ opcodeMap.Pairwise fun r r' => r.pattern.extractLsb' 24 8 ≠ r'.pattern.extractLsb' 24 8 := by
  decide

-- Decoding: the words of 95 section 2.1, one per command and more.

theorem test_decode_control :
    decode 0x01000000#32 = .instr .nop ∧ decode 0x02000000#32 = .instr .clrf := by decide

theorem test_decode_configuration :
    decode 0x10000004#32 = .instr (.setn 4) ∧ decode 0x10000400#32 = .instr (.setn 1024) ∧
    decode 0x11000000#32 = .instr .setq ∧ decode 0x12000000#32 = .instr .setk ∧
    decode 0x13000300#32 = .instr (.setsig 0x0300) := by decide

theorem test_decode_transfer :
    decode 0x20C00000#32 = .instr (.zero 6) ∧ decode 0x21000004#32 = .instr (.load 0 4) ∧
    decode 0x21600008#32 = .instr (.load 3 8) ∧ decode 0x221C0000#32 = .instr (.store 7) ∧
    decode 0x231C0000#32 = .instr (.ser 7) ∧ decode 0x24000003#32 = .instr (.ldmsg 3) ∧
    decode 0x24000000#32 = .instr (.ldmsg 0) := by decide

theorem test_decode_arithmetic :
    decode 0x30650000#32 = .instr (.add 3 1 2) ∧ decode 0x30FF8000#32 = .instr (.add 7 7 7) ∧
    decode 0x31650000#32 = .instr (.sub 3 1 2) ∧ decode 0x32B40000#32 = .instr (.neg 5 5) ∧
    decode 0x33408000#32 = .instr (.mul 2 0 1) ∧ decode 0x33600000#32 = .instr (.mul 3 0 0) ∧
    decode 0x34D80000#32 = .instr (.smul 6 6) ∧ decode 0x35240000#32 = .instr (.signal 1 1) := by decide

theorem test_decode_sampler_encoder :
    decode 0x40000000#32 = .instr (.sampu 0) ∧ decode 0x41400000#32 = .instr (.sampg 2) ∧
    decode 0x50C00000#32 = .instr (.ench 6) ∧ decode 0x51C00000#32 = .instr (.encr 6) := by decide

/-- 95 section 2.1, the other way: the encoder writes the same words. -/
theorem test_encode_words :
    [.nop, .clrf, .setn 1024, .setq, .setk, .setsig 0x0300, .zero 6, .load 3 8, .store 7, .ser 7, .ldmsg 3, .add 3 1 2,
      .sub 3 1 2, .neg 5 5, .mul 2 0 1, .smul 6 6, .signal 1 1, .sampu 0, .sampg 2, .ench 6, .encr 6].map encode =
    [0x01000000#32, 0x02000000#32, 0x10000400#32, 0x11000000#32, 0x12000000#32, 0x13000300#32, 0x20C00000#32,
      0x21600008#32, 0x221C0000#32, 0x231C0000#32, 0x24000003#32, 0x30650000#32, 0x31650000#32, 0x32B40000#32,
      0x33408000#32, 0x34D80000#32, 0x35240000#32, 0x40000000#32, 0x41400000#32, 0x50C00000#32, 0x51C00000#32] := by
  decide

-- Control and configuration.

/-- R125: state before = state after. -/
theorem test_nop : after (exec .nop (two (el 4 17 [1, 2, 3, 4]) (el 4 17 [5, 6, 7, 8]))) =
    some (two (el 4 17 [1, 2, 3, 4]) (el 4 17 [5, 6, 7, 8])) := by decide

/-- R126's example, taken by a step while FAULT = 1. -/
theorem test_clrf :
    (after (step ({ State.reset with
      fault := true, cause := .dimensionMismatch, fcmd := 0x30650000#32, din := [5, 6] }.withFetchWord 32 0x02000000))).map
      (fun t => (t.status, t.din)) = some (⟨false, false, 0, 0⟩, []) := by decide

/-- R127's examples, by a step from reset. -/
theorem test_setn : (after (step (State.reset.withFetchWord 32 0x10000004))).map (·.ringN) = some 4 := by decide

theorem test_setn_refuses :
    faultAfter (.setn 2048) State.reset = some (true, 2, 0x10000800) ∧
    faultAfter (.setn 3) State.reset = some (true, 2, 0x10000003) ∧
    faultAfter (.setn 0) State.reset = some (true, 2, 0x10000000) ∧
    faultAfter (.setn 1) State.reset = some (false, 0, 0) := by decide

/-- 95 section 2.9. -/
theorem test_setq :
    (after (exec .setq { State.reset with din := [0x7FFFFFFFFFFFFFFF, 9] })).map (fun t => (t.ringQ, t.din)) =
    some (0x7FFFFFFFFFFFFFFF, [9]) := by decide

theorem test_setq_refuses :
    (after (exec .setq { State.reset with din := [0x8000000000000000] })).map
      (fun t => (t.ringQ, t.din, t.cause, t.fcmd)) = some (0, [], .configError, 0x11000000) := by decide

/-- R129. -/
theorem test_setk :
    (after (exec .setk { State.reset with din := [8, 9] })).map (fun t => (t.k, t.din)) = some (8, [9]) := by decide

/-- R33: with DIN empty the command holds, BUSY high, and goes on when the host has pushed. -/
theorem test_setk_holds :
    (after (step (State.reset.withFetchWord 32 0x12000000))).map (fun t => (t.busy, t.cmdIn)) = some (true, []) ∧
    ((after (step (State.reset.withFetchWord 32 0x12000000))).bind fun t => after (step (t.pushDin 8))).map
      (fun t => (t.busy, t.k, t.din)) = some (false, 8, []) := by decide

/-- R130. -/
theorem test_setsig : (after (exec (.setsig 0x0180) State.reset)).map (·.sigma) = some 0x0180 := by decide

-- Creation and transfer.

/-- R71's example, and 95 section 2.9: ZERO after reset. -/
theorem test_zero : regAfter (.zero 6) (ring 4 17) 6 = some (el 4 17 [0, 0, 0, 0]) := by decide

theorem test_zero_unconfigured :
    (after (step (State.reset.withFetchWord 32 0x20000000))).map (·.status) =
    some ⟨false, true, 2, 0x20000000⟩ := by decide

/-- R72's example; the two 2^63 words of 95 section 2.2. -/
theorem test_load :
    regAfter (.load 0 4) { ring 4 17 with din := [20, 0xFFFFFFFFFFFFFFFF, 16, 17, 99] } 0 =
    some (el 4 17 [3, 16, 16, 0]) := by decide

theorem test_load_signed :
    regAfter (.load 0 4) { ring 4 17 with
      din := [0x8000000000000000, 0x7FFFFFFFFFFFFFFF, 0xFFFFFFFFFFFFFFEC, 20] } 0 = some (el 4 17 [8, 8, 14, 3]) ∧
    faultAfter (.load 0 3) { ring 4 17 with din := [1, 2, 3] } = some (true, 4, 0x21000003) := by decide

/-- R73's example; 95 section 2.9: STORE after reset. -/
theorem test_store :
    (after (exec (.store 7) ((ring 8 19).writeReg 7 (el 4 17 [0, 16, 0, 0])))).map (·.dout) = some [0, 16, 0, 0] ∧
    faultAfter (.store 0) State.reset = some (true, 7, 0x22000000) := by decide

/-- R74's example. -/
theorem test_ser :
    (after (exec (.ser 7) { (ring 8 19).writeReg 7 (el 4 17 [0, 16, 0, 0]) with dout := [77] })).map (·.dout) =
    some [77, 4, 17, 0, 16, 0, 0] := by decide

/-- R76's example: 48 bytes. -/
theorem test_toBytes :
    toBytes (el 4 17 [0, 16, 0, 0]) =
      [4, 0, 0, 0, 0, 0, 0, 0, 0x11, 0, 0, 0, 0, 0, 0, 0] ++ List.replicate 8 0 ++ [0x10, 0, 0, 0, 0, 0, 0, 0] ++
        List.replicate 16 0 := by decide

/-- 95 section 2.5: bytes beyond the length are ignored. -/
theorem test_ldmsg :
    (after (exec (.ldmsg 3) { State.reset with din := [0xFFFFFFFFFF636261] })).map
      (fun t => (t.msgLen, t.msgbuf, t.din)) = some (3, [(0, 0x61), (1, 0x62), (2, 0x63)], []) := by decide

/-- 95 section 2.5: nine bytes in two words; a length above MSG_MAX. -/
theorem test_ldmsg_two_words :
    (after (exec (.ldmsg 9) { State.reset with din := [0x4847464544434241, 0x49, 7] })).bind (·.message) =
    some [0x41, 0x42, 0x43, 0x44, 0x45, 0x46, 0x47, 0x48, 0x49] ∧
    faultAfter (.ldmsg 257) State.reset = some (true, 8, 0x24000101) := by decide

-- Ring arithmetic (95 section 2.3, the letter in brackets).

/-- (a), and aliasing (R85). -/
theorem test_add :
    regAfter (.add 3 1 2) (two (el 4 17 [3, 16, 16, 0]) (el 4 17 [16, 5, 1, 0])) 3 = some (el 4 17 [2, 4, 0, 0]) ∧
    regAfter (.add 1 1 1) (two (el 4 17 [3, 16, 16, 0]) (el 4 17 [])) 1 = some (el 4 17 [6, 15, 15, 0]) := by decide

/-- (l): the sum exceeds 64 bits before reduction in a narrower datapath; the tags differ. -/
theorem test_add_wide :
    regAfter (.add 3 1 2) (two (el 2 (2 ^ 63 - 1) [2 ^ 63 - 2, 1]) (el 2 (2 ^ 63 - 1) [2 ^ 63 - 2, 2 ^ 63 - 2])) 3 =
    some (el 2 (2 ^ 63 - 1) [9223372036854775805, 0]) ∧
    faultAfter (.add 2 0 1) (two (el 4 17 [1, 2, 3, 4]) (el 4 19 [1, 2, 3, 4])) = some (true, 7, 0x30408000) ∧
    faultAfter (.add 3 1 2) (two (el 4 17 [1, 2, 3, 4]) (el 4 19 [1, 2, 3, 4])) = some (true, 3, 0x30650000) := by decide

/-- (c), (m): ra is the minuend. -/
theorem test_sub :
    regAfter (.sub 3 1 2) (two (el 4 17 [3, 16, 16, 0]) (el 4 17 [16, 5, 1, 0])) 3 = some (el 4 17 [4, 11, 15, 0]) ∧
    regAfter (.sub 3 1 2) (two (el 2 (2 ^ 63 - 1) [0, 1]) (el 2 (2 ^ 63 - 1) [2 ^ 63 - 2, 2])) 3 =
      some (el 2 (2 ^ 63 - 1) [1, 9223372036854775806]) := by decide

/-- (e). -/
theorem test_neg :
    regAfter (.neg 1 1) (two (el 4 17 [3, 16, 16, 0]) (el 4 17 [])) 1 = some (el 4 17 [14, 1, 1, 0]) := by decide

/-- (b), (f): the wrapped term is negated. -/
theorem test_mul :
    regAfter (.mul 3 1 2) (two (el 4 17 [1, 2, 3, 4]) (el 4 17 [5, 6, 7, 8])) 3 = some (el 4 17 [12, 15, 2, 9]) ∧
    regAfter (.mul 3 1 2) (two (el 4 17 [0, 1, 0, 0]) (el 4 17 [9, 8, 7, 6])) 3 = some (el 4 17 [11, 9, 8, 7]) := by
  decide

/-- (j), (n), and R91's x³ · x² = −x. -/
theorem test_mul_corners :
    regAfter (.mul 3 1 2) (two (el 1 17 [16]) (el 1 17 [16])) 3 = some (el 1 17 [1]) ∧
    regAfter (.mul 3 1 1) (two (el 2 (2 ^ 63 - 1) [2 ^ 63 - 2, 2 ^ 63 - 2]) (el 2 2 [])) 3 =
      some (el 2 (2 ^ 63 - 1) [0, 2]) ∧
    regAfter (.mul 3 1 2) (two (el 4 17 [0, 0, 0, 1]) (el 4 17 [0, 0, 1, 0])) 3 = some (el 4 17 [0, 16, 0, 0]) := by
  decide

/-- (o), (r): K is unsigned. -/
theorem test_smul :
    regAfter (.smul 6 1) { two (el 4 17 [0, 1, 1, 0]) (el 4 17 []) with k := 8 } 6 = some (el 4 17 [0, 8, 8, 0]) ∧
    regAfter (.smul 6 1) { two (el 2 (2 ^ 63 - 1) [2 ^ 63 - 2, 2]) (el 4 17 []) with k := 0xFFFFFFFFFFFFFFFF } 6 =
      some (el 2 (2 ^ 63 - 1) [2 ^ 63 - 2, 2]) := by decide

/-- R88's whole table at q = 17, and 95 section 2.3 at q = 5 (its tie at 1). -/
theorem test_signal :
    ((List.range 17).map fun v => (signalCoeff 17 (BitVec.ofNat 64 v)).toNat) =
      [0, 0, 0, 0, 8, 8, 8, 8, 8, 8, 8, 8, 8, 0, 0, 0, 0] ∧
    regAfter (.signal 1 1) (two (el 8 5 [0, 1, 2, 3, 4, 0, 0, 0]) (el 4 17 [])) 1 =
      some (el 8 5 [0, 2, 2, 2, 0, 0, 0, 0]) := by decide

/-- R88's table at q = 16 (ties at 4 and 12) and at q = 2, 3. -/
theorem test_signal_even :
    ((List.range 16).map fun v => (signalCoeff 16 (BitVec.ofNat 64 v)).toNat) =
      [0, 0, 0, 0, 8, 8, 8, 8, 8, 8, 8, 8, 8, 0, 0, 0] ∧
    ((List.range 2).map fun v => (signalCoeff 2 (BitVec.ofNat 64 v)).toNat) = [0, 1] ∧
    ((List.range 3).map fun v => (signalCoeff 3 (BitVec.ofNat 64 v)).toNat) = [0, 1, 1] := by decide

-- Sampler (95 section 2.6, 3.6).

/-- Two words rejected, four accepted, none left over taken. -/
theorem test_sampu :
    (after (exec (.sampu 0) { ring 4 17 with
      ent := [0xFFFFFFFFFFFFFFFF, 0x20, 0x11, 0x30, 0x05, 0xABCDEF0123456789, 1].map .word })).map
      (fun t => (t.readReg 0, t.ent)) = some (some (el 4 17 [0, 16, 5, 9]), [.word 1]) := by decide

/-- REJECT_LIMIT = 4: exhausted after the fifth word; a failure answer; rd unchanged. -/
theorem test_sampu_faults :
    (after (exec (.sampu 0) { ring 2 17 with
      params := { Config.Params.default with rejectLimit := 4 }, ent := [5, 31, 31, 31, 31, 9].map .word })).map
      (fun t => (t.readReg 0, t.cause, t.ent)) = some (none, .samplerExhausted, [.word 9]) ∧
    (after (exec (.sampu 0) { ring 4 17 with ent := [.word 5, .failure, .word 6] })).map
      (fun t => (t.readReg 0, t.cause, t.ent)) = some (none, .entropyUnavailable, [.word 6]) := by decide

/-- R104, 90 C2: a sample of −26 at q = 17 gives 8, one of −15 gives 2; w1 is drawn before w2. -/
theorem test_sampg :
    (after (sampgWith (fun w1 w2 _ => (w2.toNat : Int) - w1.toNat) 2 { ring 2 17 with
      ent := [26, 0, 20, 5].map .word })).bind (·.readReg 2) = some (el 2 17 [8, 2]) := by decide

/-- 95 section 3.6: the third request fails; P1 keeps its old contents. -/
theorem test_sampg_fails :
    (after (exec (.sampg 1) { two (el 4 17 [0, 0, 0, 0]) (el 4 17 []) with
      ent := [.word 0x8000000000000000, .word 0, .failure] })).map
      (fun t => (t.status, t.readReg 1, t.ent)) =
    some (⟨false, true, 5, 0x41200000⟩, some (el 4 17 [0, 0, 0, 0]), []) := by decide

-- Encoder (95 section 2.8).

/-- A HASH that answers the two first digest bytes of 95 section 2.8 for counter blocks 0 and 1 of "abc". -/
def vectorHash (bs : List Byte) : Config.Digest :=
  let d (a b : Byte) : Config.Digest := ((Vector.replicate 32 (0 : Byte)).set 0 a).set 1 b
  if bs = [0, 0, 0, 0, 0x61, 0x62, 0x63] then d 0x0a 0x83
  else if bs = [1, 0, 0, 0, 0x61, 0x62, 0x63] then d 0x3b 0xf3
  else if bs = [0, 0, 0, 1, 0x61, 0x62, 0x63] then d 0xf9 0xc4
  else d 0xff 0xff

/-- "abc" at (16, 17). -/
theorem test_ench :
    (after (enchWith vectorHash 6 ((ring 16 17).setMessage [0x61, 0x62, 0x63]))).bind (·.readReg 6) =
    some (el 16 17 [0, 0, 0, 0, 8, 0, 8, 0, 8, 0, 0, 0, 0, 0, 8, 8]) := by decide

/-- The second block of "abc", at either counter byte order. -/
theorem test_ench_second_block :
    ((enchCoeffs vectorHash .little 272 17 [0x61, 0x62, 0x63]).drop 256).map BitVec.toNat =
      [0, 0, 8, 8, 8, 0, 8, 8, 8, 8, 8, 8, 0, 0, 8, 8] ∧
    ((enchCoeffs vectorHash .big 272 17 [0x61, 0x62, 0x63]).drop 256).map BitVec.toNat =
      [8, 8, 8, 8, 8, 0, 0, 8, 8, 8, 0, 0, 0, 8, 0, 0] := by decide

/-- A5 at n = 8; "ab" at n = 16. -/
theorem test_encr :
    regAfter (.encr 6) ((ring 8 17).setMessage [0xA5]) 6 = some (el 8 17 [1, 0, 1, 0, 0, 1, 0, 1]) ∧
    regAfter (.encr 6) ((ring 16 17).setMessage [0x61, 0x62]) 6 =
      some (el 16 17 [0, 1, 1, 0, 0, 0, 0, 1, 0, 1, 1, 0, 0, 0, 1, 0]) := by decide

/-- "abc" at n = 16, under both settings of ENCR_OVERLEN; the empty message. -/
theorem test_encr_overlen :
    faultAfter (.encr 6) ((ring 16 17).setMessage [0x61, 0x62, 0x63]) = some (true, 8, 0x51C00000) ∧
    regAfter (.encr 6) ({ ring 4 17 with
      params := { Config.Params.default with encrOverlen := .truncate } }.setMessage [0xA5]) 6 =
      some (el 4 17 [1, 0, 1, 0]) ∧
    regAfter (.encr 6) (ring 4 17) 6 = some (el 4 17 [0, 0, 0, 0]) := by decide

-- Taking commands (R147, R170, R171).

/-- While FAULT = 1 an illegal word is discarded and does not raise ILLEGAL_COMMAND; a near-CLRF is discarded too. -/
theorem test_discard :
    let s := { State.reset with fault := true, cause := .uninitOperand, fcmd := 0x22000000#32, din := [1] }
    after (step (s.withFetchWord 32 0x02000001)) = some s ∧ after (step (s.withFetchWord 32 0)) = some s ∧
    after (step (s.withFetchWord 32 0x11000000)) = some s := by decide

/-- An illegal word with FAULT = 0. -/
theorem test_illegal_command :
    (after (step (State.reset.withFetchWord 32 0x32B48000))).map (·.status) = some ⟨false, true, 1, 0x32B48000⟩ := by
  decide

/-- A reset during a held command abandons it. -/
theorem test_reset_abandons :
    (after (step { ring 4 17 with cur := some 0x21000004, din := [1], dout := [2], rstIn := true })) =
      some State.reset := by decide

/-- The table's numbering of bits, by the decoder. -/
theorem test_decodeTableWord :
    decodeTableWord 32 0x30650000 = some (.add 3 1 2) ∧ decodeTableWord 32 0x02000001 = none := by decide

-- Runs (R180).

/-- SETK offered before its word is pushed (R33 allows either order): it holds, and is not over; then a good end. -/
theorem test_run_good_end :
    let run := Run.start [.offer 0x12000000, .push 8] State.reset
    (∃ r, run.moves [.host, .engine] = some r ∧ ¬r.over) ∧
    ∃ r, run.moves [.host, .engine, .host, .engine] = some r ∧ r.goodEnd ∧ r.engine.k = 8 :=
  ⟨⟨_, rfl, fun h => nomatch h.2.2⟩, ⟨_, rfl, ⟨⟨by decide, rfl, rfl⟩, rfl, rfl⟩, rfl⟩⟩

/-- A pop the program says and the host has not done keeps a run from being over. A LOAD that faults ends its run, its words
not pushed (R175); or the host leaves the push undone and acknowledges. -/
theorem test_run_pop_and_fault :
    let run := Run.start [.offer 0x01000000, .pop] { State.reset with dout := [5] }
    let bad := Run.start [.offer 0x21000004, .push 1, .push 2] State.reset
    let ack := Run.start [.offer 0x21000004, .push 1, .offer 0x02000000] State.reset
    ((∃ r, run.moves [.host, .engine] = some r ∧ ¬r.over) ∧
      ∃ r, run.moves [.host, .engine, .host] = some r ∧ r.goodEnd ∧ r.popped = [5]) ∧
    (∃ r, bad.moves [.host, .engine] = some r ∧ r.faultedEnd) ∧
    ∃ r, ack.moves [.host, .engine, .skip, .host, .engine] = some r ∧ r.goodEnd :=
  ⟨⟨⟨_, rfl, fun h => nomatch h.1 .pop (by simp)⟩, ⟨_, rfl, ⟨⟨by decide, rfl, rfl⟩, rfl, rfl⟩, rfl⟩⟩,
    ⟨_, rfl, ⟨by decide, rfl, rfl⟩, rfl⟩, ⟨_, rfl, ⟨by decide, rfl, rfl⟩, rfl, rfl⟩⟩

-- Witnesses: for each statement with hypotheses, a state and operands that meet them, one for each clause.

/-- Every word of a list below a bound, as `decide` can run it. -/
def allBelow (q : Nat) (c : List Word) : Bool := c.all fun x => decide (x.toNat < q)

theorem below_of_all {q : Nat} {c : List Word} (h : allBelow q c = true) : ∀ x ∈ c, x.toNat < q := by
  simpa [allBelow] using h

/-- The invariant of an element, as `decide` can run it. -/
def elementOk (nMax : Nat) (e : Element) : Bool :=
  legalDimension nMax e.n && legalModulus e.q && e.c.length == e.n.toNat && allBelow e.q.toNat e.c

theorem wf_of_ok {nMax : Nat} {e : Element} (h : elementOk nMax e = true) : e.WF nMax := by
  simp only [elementOk, Bool.and_eq_true, beq_iff_eq] at h
  exact ⟨h.1.1.1, h.1.1.2, h.1.2, below_of_all h.2⟩

theorem regs_of_all {s : State} (h : ∀ r, (s.readReg r).all (elementOk s.params.nMax) = true) (r : Reg)
    (e : Element) (hr : s.readReg r = some e) : e.WF s.params.nMax := by
  have := h r
  rw [hr] at this
  exact wf_of_ok this

/-- Configured for (4, 17), three elements of that ring, K = 8, words in DIN. -/
def sample : State :=
  { (two (el 4 17 [3, 16, 16, 0]) (el 4 17 [16, 5, 1, 0])).writeReg 4 (el 4 17 [0, 8, 4, 13]) with
    k := 8, din := [20, 5, 16, 17, 99] }

/-- Configured for (8, 17), with the one-byte message A5. -/
def messaged : State := (ring 8 17).setMessage [0xA5]

/-- FAULT = 1. -/
def faulted : State := { sample with fault := true, cause := .uninitOperand, fcmd := 0x22000000#32 }

theorem sample_inv : sample.Inv :=
  ⟨by decide, regs_of_all (by decide), by decide, by decide, by decide, by decide,
    fun _ => ⟨(fun h => nomatch h), (fun h => absurd h (Nat.not_lt_zero _))⟩, by decide, by decide, fun _ h => nomatch h⟩

theorem faulted_inv : faulted.Inv :=
  ⟨by decide, regs_of_all (by decide), by decide, by decide, by decide, by decide,
    fun _ => ⟨(fun h => nomatch h), (fun h => absurd h (Nat.not_lt_zero _))⟩, by decide, by decide, fun _ h => nomatch h⟩

theorem messaged_inv : messaged.Inv :=
  ⟨by decide, regs_of_all (by decide), by decide, by decide, by decide, by decide,
    fun a => by
      rw [show messaged.msgbuf = Memory.writeBytes [] 0 [0xA5] from rfl, Memory.read_writeBytes,
        show messaged.msgLen.toNat = 1 from rfl]
      by_cases h : a = 0 <;> simp [h, Memory.read],
    by decide, by decide, fun w h => by simp [show messaged.cur = none from rfl] at h⟩

theorem witness_FmodIsTheFloorRemainder : (1 : Int) ≤ 17 ∧ (0 : Int) ≤ 3 ∧ (3 : Int) < 17 ∧ (17 : Int) ∣ 20 - 3 := by
  decide

theorem witness_HalfAndCyclicDistance : 16 < 17 ∧ 0 < 17 := by decide

theorem witness_BitlenIsTheLeastWidth : 1 ≤ 1 ∧ 2 ≤ 2 ∧ bitlen 1 = 1 ∧ bitlen 16 = 5 ∧ bitlen 15 = 4 := by decide

theorem witness_EncodeOfDecode : decode 0x30FF8000#32 = .instr (.add 7 7 7) := by decide

theorem witness_DecodeFollowsTheOpcodeMap :
    decode 0x30FF8000#32 = .instr (.add 7 7 7) ∧
    ∃ r ∈ opcodeMap, r.mnemonic = "ADD" ∧ r.Matches 0x30FF8000#32 :=
  ⟨by decide, ⟨"ADD", 0x30000000#32, 0xFF007FFF#32⟩, by decide, rfl, by unfold OpcodeRow.Matches; decide⟩

theorem witness_ResetInputResets :
    { faulted with rstIn := true, cur := some 0x21000004 }.rstIn = true := rfl

theorem witness_ResetMeetsTheInvariant :
    Config.Params.default.wellFormed = true ∧
    (⟨32768, 65535, 1, .big, .truncate⟩ : Config.Params).wellFormed = true := by decide

theorem witness_StepKeepsTheInvariant : sample.Inv ∧ ∃ t, step sample = .next t := ⟨sample_inv, _, rfl⟩

theorem witness_StepNeverStops : messaged.Inv := messaged_inv

/-- An ADD offered. -/
def offered : State := { sample with cmdIn := [0x30650000#32, 0x01000000#32] }

/-- Taken with FAULT = 0; CLRF taken with FAULT = 1; a command in progress. -/
theorem witness_StepRunsTheDecodedCommand :
    (offered.rstIn = false ∧ decode 0x30650000#32 = .instr (.add 3 1 2) ∧ offered.fault = false ∧ offered.cur = none ∧
      offered.cmdIn = 0x30650000#32 :: [0x01000000#32]) ∧
    (faulted.rstIn = false ∧ decode 0x02000000#32 = .instr .clrf ∧ faulted.cur = none ∧
      { faulted with cmdIn := [0x02000000#32] }.cmdIn = 0x02000000#32 :: []) ∧
    (sample.rstIn = false ∧ decode 0x12000000#32 = .instr .setk ∧ sample.fault = false ∧
      { sample with cur := some 0x12000000#32 }.cur = some 0x12000000#32) := by
  decide

theorem witness_IllegalWordRaisesIllegalCommand :
    (sample.rstIn = false ∧ sample.cur = none ∧ sample.fault = false ∧
      { sample with cmdIn := [0x30650001#32] }.cmdIn = 0x30650001#32 :: []) ∧
    ∀ r ∈ opcodeMap, ¬ r.Matches 0x30650001#32 := by
  unfold OpcodeRow.Matches
  decide

theorem witness_FaultedEngineDiscards :
    faulted.rstIn = false ∧ faulted.cur = none ∧ faulted.fault = true ∧
    { faulted with cmdIn := [0x02000001#32] }.cmdIn = 0x02000001#32 :: [] ∧
    (0x02000001#32 : Cmd) ≠ 0x02000000#32 := by decide

theorem witness_IdleEngineKeepsItsState : sample.rstIn = false ∧ sample.busy = false ∧ sample.cmdIn = [] := by decide

/-- The fault stands; it is gone by CLRF; it is gone by a reset. -/
theorem witness_FaultsNeverNest :
    (faulted.fault = true ∧ ∃ t, step faulted = .next t ∧ t.fault = true) ∧
    (∃ t, step (faulted.withFetchWord 32 0x02000000) = .next t ∧ t.fault = false) ∧
    ∃ t, step { faulted with rstIn := true } = .next t ∧ t.fault = false :=
  ⟨⟨rfl, _, rfl, rfl⟩, ⟨_, rfl, rfl⟩, ⟨_, rfl, rfl⟩⟩

/-- A fault with no trace; SETQ's; a sampler's. -/
theorem witness_FaultingCommandLeavesOnlyItsTraces :
    sample.fault = false ∧
    (∃ t, exec (.store 7) sample = .next t ∧ t.fault = true) ∧
    (∃ t, exec .setq { sample with din := [1, 2] } = .next t ∧ t.fault = true ∧ t.din = [2]) ∧
    ∃ t, exec (.sampu 0) { sample with ent := [.word 5, .failure] } = .next t ∧ t.fault = true ∧ t.ent = [] :=
  ⟨rfl, ⟨_, rfl, rfl⟩, ⟨_, rfl, rfl, rfl⟩, ⟨_, rfl, rfl, rfl⟩⟩

theorem witness_OnlyTheDestinationChanges :
    ∃ t, exec (.add 3 1 2) sample = .next t ∧ t.readReg 3 ≠ sample.readReg 3 := ⟨_, rfl, by decide⟩

/-- A step that runs SETK, and one that runs another command. -/
theorem witness_SettingsAreSticky :
    sample.rstIn = false ∧
    (∃ t, step (sample.withFetchWord 32 0x12000000) = .next t ∧ t.k = 20) ∧
    ∃ t, step (sample.withFetchWord 32 0x30650000) = .next t ∧ t.k = 8 :=
  ⟨rfl, ⟨_, rfl, rfl⟩, ⟨_, rfl, rfl⟩⟩

theorem witness_ParametersNeverChange : ∃ t, step (sample.withFetchWord 32 0x30650000) = .next t := ⟨_, rfl⟩

theorem witness_DoutOnlyGrows :
    sample.rstIn = false ∧ ∃ t, step (sample.withFetchWord 32 0x22040000) = .next t ∧ t.dout = [3, 16, 16, 0] :=
  ⟨rfl, _, rfl, rfl⟩

/-- A command is taken; none is, while one holds. -/
theorem witness_CommandsAreTakenInOrder :
    (∃ t, step (sample.withFetchWord 32 0x01000000) = .next t ∧ t.cmdIn = []) ∧
    ∃ t, step { ring 4 17 with cur := some 0x21000004, cmdIn := [0x01000000] } = .next t ∧ t.cmdIn = [0x01000000] :=
  ⟨⟨_, rfl, rfl⟩, ⟨_, rfl, rfl⟩⟩

theorem witness_HeldCommandChangesNothing :
    ∃ t, exec (.load 0 4) { ring 4 17 with din := [1, 2, 3] } = .next t ∧ t.cur ≠ none := ⟨_, rfl, by decide⟩

/-- The ends of the legal range, and what lies beside them. -/
theorem witness_SetnSetsLegalDimensions :
    ((∃ e, (1 : Imm).toNat = 2 ^ e) ∧ (1 : Imm).toNat ≤ sample.params.nMax) ∧
    ((∃ e, (1024 : Imm).toNat = 2 ^ e) ∧ (1024 : Imm).toNat ≤ sample.params.nMax) ∧
    ¬((∃ e, (0 : Imm).toNat = 2 ^ e) ∧ (0 : Imm).toNat ≤ sample.params.nMax) ∧
    ¬((∃ e, (2048 : Imm).toNat = 2 ^ e) ∧ (2048 : Imm).toNat ≤ sample.params.nMax) :=
  ⟨⟨⟨0, rfl⟩, by decide⟩, ⟨⟨10, rfl⟩, by decide⟩, fun h => by obtain ⟨⟨e, he⟩, _⟩ := h; exact absurd (Nat.two_pow_pos e) (he ▸ Nat.lt_irrefl 0),
    fun h => absurd h.2 (by decide)⟩

theorem witness_SetqSetsLegalModuli :
    { sample with din := [2, 9] }.din = 2 :: [9] ∧ 2 ≤ (2 : Word).toNat ∧ (2 : Word).toNat ≤ 2 ^ 63 - 1 ∧
    (0x7FFFFFFFFFFFFFFF : Word).toNat ≤ 2 ^ 63 - 1 ∧ (1 : Word).toNat < 2 ∧
    2 ^ 63 - 1 < (0x8000000000000000 : Word).toNat ∧ (ring 4 17).din = [] := by decide

theorem witness_SetkAndSetsigTakeAnyValue :
    sample.din = 20 :: [5, 16, 17, 99] ∧ (ring 4 17).din = [] := by decide

theorem witness_UnconfiguredCreationFaults :
    State.reset.ringN = 0 ∧ { State.reset with ringN := 4 }.ringQ = 0 ∧
    (Instr.encr 7) ∈ [.zero 7, .load 7 4, .sampu 7, .sampg 7, .ench 7, .encr 7] := by decide

theorem witness_ZeroWritesTheZeroElement : sample.ringN ≠ 0 ∧ sample.ringQ ≠ 0 := by decide

theorem witness_LoadReducesSignedWords :
    sample.ringN ≠ 0 ∧ sample.ringQ ≠ 0 ∧ sample.ringN.toNat ≤ sample.din.length := by decide

/-- LOAD with a wrong count, LOAD short of words; LDMSG too long, LDMSG short of words. -/
theorem witness_LoadAndLdmsgFaultOrWait :
    sample.ringN ≠ 0 ∧ sample.ringQ ≠ 0 ∧ (3 : Imm) ≠ sample.ringN ∧
    ({ sample with din := [1, 2, 3] }.din.length < sample.ringN.toNat ∧ (4 : Imm) = sample.ringN) ∧
    sample.params.msgMax < (257 : Imm).toNat ∧
    ((256 : Imm).toNat ≤ sample.params.msgMax ∧ sample.din.length < ((256 : Imm).toNat + 7) / 8) := by decide

theorem witness_StoreAndSerPushTheElement : sample.readReg 1 = some (el 4 17 [3, 16, 16, 0]) := by decide

theorem witness_SerialisationIsInjective :
    (el 4 17 [3, 16, 16, 0]).WF 1024 ∧ 5 < (el 4 17 [3, 16, 16, 0]).n.toNat + 2 ∧
    toBytes (el 4 17 [3, 16, 16, 0]) = toBytes (el 4 17 [3, 16, 16, 0]) := ⟨wf_of_ok (by decide), by decide, rfl⟩

/-- A length with a part word, the whole capacity, and the empty message. -/
theorem witness_LdmsgLoadsTheMessage :
    ((3 : Imm).toNat ≤ sample.params.msgMax ∧ ((3 : Imm).toNat + 7) / 8 ≤ sample.din.length ∧
      8 * 0 + 2 < (3 : Imm).toNat) ∧
    ((256 : Imm).toNat ≤ sample.params.msgMax ∧ ((256 : Imm).toNat + 7) / 8 ≤ (List.replicate 32 (7 : Word)).length ∧
      8 * 31 + 7 < (256 : Imm).toNat) ∧
    ((0 : Imm).toNat ≤ sample.params.msgMax ∧ ((0 : Imm).toNat + 7) / 8 ≤ (ring 4 17).din.length) := by decide

/-- ra invalid; rb invalid; n differs; q differs; the tags agree. -/
theorem witness_TwoSourceChecks :
    (Instr.mul 3 1 2) ∈ [.add 3 1 2, .sub 3 1 2, .mul 3 1 2] ∧
    sample.readReg 7 = none ∧ sample.readReg 1 = some (el 4 17 [3, 16, 16, 0]) ∧
    (el 4 17 [3, 16, 16, 0]).n ≠ (el 8 17 []).n ∧ (el 4 17 [3, 16, 16, 0]).q ≠ (el 4 19 []).q ∧
    (two (el 4 17 []) (el 8 17 [])).readReg 2 = some (el 8 17 []) ∧
    (two (el 4 17 []) (el 4 19 [])).readReg 2 = some (el 4 19 []) := by decide

theorem witness_OneSourceChecks :
    (Instr.ser 7) ∈ [.neg 3 7, .smul 3 7, .signal 3 7, .store 7, .ser 7] ∧ sample.readReg 7 = none ∧
    (Instr.signal 3 1) ∈ [.neg 3 1, .smul 3 1, .signal 3 1] ∧
    sample.readReg 1 = some (el 4 17 [3, 16, 16, 0]) := by decide

/-- For ADD, SUB, MUL and the commutative laws: two valid sources of one tag. -/
theorem witness_AddAddsCoefficientwise :
    sample.Inv ∧ sample.readReg 1 = some (el 4 17 [3, 16, 16, 0]) ∧ sample.readReg 2 = some (el 4 17 [16, 5, 1, 0]) ∧
    (el 4 17 [3, 16, 16, 0]).n = (el 4 17 [16, 5, 1, 0]).n ∧ (el 4 17 [3, 16, 16, 0]).q = (el 4 17 [16, 5, 1, 0]).q :=
  ⟨sample_inv, by decide⟩

theorem witness_SubSubtractsCoefficientwise :
    sample.Inv ∧ sample.readReg 2 = some (el 4 17 [16, 5, 1, 0]) ∧ sample.readReg 1 = some (el 4 17 [3, 16, 16, 0]) ∧
    (el 4 17 [16, 5, 1, 0]).n = (el 4 17 [3, 16, 16, 0]).n ∧ (el 4 17 [16, 5, 1, 0]).q = (el 4 17 [3, 16, 16, 0]).q :=
  ⟨sample_inv, by decide⟩

theorem witness_MulIsTheNegacyclicConvolution :
    sample.Inv ∧ sample.readReg 1 = some (el 4 17 [3, 16, 16, 0]) ∧ sample.readReg 4 = some (el 4 17 [0, 8, 4, 13]) ∧
    (el 4 17 [3, 16, 16, 0]).n = (el 4 17 [0, 8, 4, 13]).n ∧ (el 4 17 [3, 16, 16, 0]).q = (el 4 17 [0, 8, 4, 13]).q :=
  ⟨sample_inv, by decide⟩

theorem witness_AddAndMulCommute :
    sample.Inv ∧ sample.readReg 2 = some (el 4 17 [16, 5, 1, 0]) ∧ sample.readReg 4 = some (el 4 17 [0, 8, 4, 13]) ∧
    (el 4 17 [16, 5, 1, 0]).n = (el 4 17 [0, 8, 4, 13]).n ∧ (el 4 17 [16, 5, 1, 0]).q = (el 4 17 [0, 8, 4, 13]).q :=
  ⟨sample_inv, by decide⟩

/-- For NEG, SMUL, SIGNAL and their laws: one valid source. -/
theorem witness_NegNegatesCoefficientwise :
    sample.Inv ∧ sample.readReg 1 = some (el 4 17 [3, 16, 16, 0]) := ⟨sample_inv, by decide⟩

theorem witness_SmulScalesByK : sample.Inv ∧ sample.readReg 2 = some (el 4 17 [16, 5, 1, 0]) ∧ sample.k = 8 :=
  ⟨sample_inv, by decide⟩

theorem witness_SignalRoundsToTheNearer : sample.Inv ∧ sample.readReg 4 = some (el 4 17 [0, 8, 4, 13]) :=
  ⟨sample_inv, by decide⟩

theorem witness_NegTwiceCopies : sample.Inv ∧ sample.readReg 2 = some (el 4 17 [16, 5, 1, 0]) := ⟨sample_inv, by decide⟩

theorem witness_SignalIsIdempotent : sample.Inv ∧ sample.readReg 4 = some (el 4 17 [0, 8, 4, 13]) :=
  ⟨sample_inv, by decide⟩

/-- A coefficient 0 and a coefficient half(q) among them. -/
theorem witness_SignalRange :
    sample.Inv ∧ sample.readReg 4 = some (el 4 17 [0, 8, 4, 13]) ∧
    (∃ t, exec (.signal 5 4) sample = .next t ∧ t.readReg 5 = some (el 4 17 [0, 8, 8, 0])) ∧
    ((el 4 17 [0, 8, 4, 13]).c.getD 0 0).toNat = 0 ∧ ((el 4 17 [0, 8, 4, 13]).c.getD 1 0).toNat = half 17 :=
  ⟨sample_inv, by decide, ⟨_, rfl, by decide⟩, by decide, by decide⟩

theorem witness_NegIsTheAdditiveInverse :
    legalModulus 17 = true ∧ (∀ x ∈ [(3 : Word), 16, 0], x.toNat < (17 : Word).toNat) ∧
    ∀ x ∈ [(16 : Word), 5, 0], x.toNat < (17 : Word).toNat :=
  ⟨by decide, below_of_all (by decide), below_of_all (by decide)⟩

theorem witness_MulDistributesOverAdd :
    (el 4 17 [3, 16, 16, 0]).WF 1024 ∧ (el 4 17 [16, 5, 1, 0]).WF 1024 ∧ (el 4 17 [0, 8, 4, 13]).WF 1024 :=
  ⟨wf_of_ok (by decide), wf_of_ok (by decide), wf_of_ok (by decide)⟩

/-- Per coefficient the words rejected and the word accepted, as in test_sampu. -/
def sampleDraws : List (List Word × Word) :=
  [([0xFFFFFFFFFFFFFFFF], 0x20), ([0x11], 0x30), ([], 0x05), ([], 0xABCDEF0123456789)]

/-- Whether a coefficient's draws are below REJECT_LIMIT rejections and then an acceptance, for q = 17 (b = 5). -/
def drawOk (d : List Word × Word) : Bool :=
  decide (d.1.length < sample.params.rejectLimit) &&
    d.1.all (fun w => decide (sample.ringQ.toNat ≤ w.toNat % 2 ^ bitlen (sample.ringQ.toNat - 1))) &&
    decide (d.2.toNat % 2 ^ bitlen (sample.ringQ.toNat - 1) < sample.ringQ.toNat)

theorem draws_of_ok {l : List (List Word × Word)} (h : l.all drawOk = true) :
    ∀ d ∈ l, d.1.length < sample.params.rejectLimit ∧
      (∀ w ∈ d.1, sample.ringQ.toNat ≤ w.toNat % 2 ^ bitlen (sample.ringQ.toNat - 1)) ∧
      d.2.toNat % 2 ^ bitlen (sample.ringQ.toNat - 1) < sample.ringQ.toNat := by
  intro d hd
  have := List.all_eq_true.mp h d hd
  simpa only [drawOk, Bool.and_eq_true, decide_eq_true_eq, List.all_eq_true, and_assoc] using this

theorem witness_SampuTakesTheAcceptedWords :
    sample.Inv ∧ sample.ringN ≠ 0 ∧ sample.ringQ ≠ 0 ∧ sampleDraws.length = sample.ringN.toNat ∧
    ∀ d ∈ sampleDraws, d.1.length < sample.params.rejectLimit ∧
      (∀ w ∈ d.1, sample.ringQ.toNat ≤ w.toNat % 2 ^ bitlen (sample.ringQ.toNat - 1)) ∧
      d.2.toNat % 2 ^ bitlen (sample.ringQ.toNat - 1) < sample.ringQ.toNat :=
  ⟨sample_inv, by decide, by decide, by decide, draws_of_ok (by decide)⟩

/-- A prefix of those draws; then one rejected word (a failure follows, or nothing), or REJECT_LIMIT of them. -/
theorem witness_SampuFaultsOrWaits :
    sample.Inv ∧ sample.ringN ≠ 0 ∧ sample.ringQ ≠ 0 ∧ (sampleDraws.take 3).length < sample.ringN.toNat ∧
    (∀ d ∈ sampleDraws.take 3, d.1.length < sample.params.rejectLimit ∧
      (∀ w ∈ d.1, sample.ringQ.toNat ≤ w.toNat % 2 ^ bitlen (sample.ringQ.toNat - 1)) ∧
      d.2.toNat % 2 ^ bitlen (sample.ringQ.toNat - 1) < sample.ringQ.toNat) ∧
    sample.ringQ.toNat ≤ (31 : Word).toNat % 2 ^ bitlen (sample.ringQ.toNat - 1) ∧
    [(31 : Word)].length < sample.params.rejectLimit ∧
    (List.replicate 128 (31 : Word)).length = sample.params.rejectLimit :=
  ⟨sample_inv, by decide, by decide, by decide, draws_of_ok (by decide), by decide, by decide, List.length_replicate⟩

theorem witness_SampuReachesEveryElement :
    sample.Inv ∧ sample.ringN ≠ 0 ∧ sample.ringQ ≠ 0 ∧
    ([3, 16, 0, 9] : List Word).length = sample.ringN.toNat ∧
    (∀ x ∈ ([3, 16, 0, 9] : List Word), x.toNat < sample.ringQ.toNat) ∧ ∀ e, sample.ringQ.toNat ≠ 2 ^ e := by
  refine ⟨sample_inv, by decide, by decide, by decide, below_of_all (by decide), fun e he => ?_⟩
  have h : (17 : Nat) = 2 ^ e := he
  cases e with
  | zero => omega
  | succ e => omega

theorem witness_SampgReducesGauss :
    sample.ringN ≠ 0 ∧ sample.ringQ ≠ 0 ∧ [((1 : Word), (2 : Word)), (3, 4), (5, 6), (7, 8)].length = sample.ringN.toNat := by
  decide

/-- The failure, or the lack of an answer, at the third of eight requests. -/
theorem witness_SampgFaultsOrWaits :
    sample.ringN ≠ 0 ∧ sample.ringQ ≠ 0 ∧ [(1 : Word), 2].length < 2 * sample.ringN.toNat ∧
    { sample with ent := [.word 1, .word 2, .failure] }.ent = [(1 : Word), 2].map .word ++ .failure :: [] ∧
    { sample with ent := [.word 1, .word 2] }.ent = [(1 : Word), 2].map .word := by decide

theorem witness_SampgWithoutDeviationIsZero :
    Config.GaussZero (fun _ _ sg => (sg.toNat : Int)) ∧ { ring 1 17 with sigma := 0 }.sigma = 0 ∧
    (ring 1 17).ringN ≠ 0 ∧ (ring 1 17).ringQ ≠ 0 ∧ [(1 : Word), 2].length = 2 * (ring 1 17).ringN.toNat :=
  ⟨fun _ _ => rfl, by decide⟩

/-- The hash port not answering; answering. -/
theorem witness_EnchExpandsTheDigest :
    messaged.ringN ≠ 0 ∧ messaged.ringQ ≠ 0 ∧ { messaged with hashWaits := true }.hashWaits = true ∧
    messaged.hashWaits = false ∧ messaged.message = some [0xA5] := by decide

/-- A message of 8 bits at n = 4. -/
def tooLong : State := (ring 4 17).setMessage [0xA5]

/-- The message fits exactly; it is too long, under either setting. -/
theorem witness_EncrWritesTheMessageBits :
    (messaged.message = some [0xA5] ∧ [(0xA5 : Byte)].length = messaged.msgLen.toNat ∧
      8 * messaged.msgLen.toNat ≤ messaged.ringN.toNat) ∧
    (tooLong.ringN ≠ 0 ∧ tooLong.ringQ ≠ 0 ∧ tooLong.message = some [0xA5] ∧
      tooLong.ringN.toNat < 8 * tooLong.msgLen.toNat ∧ tooLong.params.encrOverlen = .fault ∧
      { tooLong with params := { tooLong.params with encrOverlen := .truncate } }.params.encrOverlen = .truncate) := by
  decide

theorem witness_TheMessageIsPresent : messaged.Inv := messaged_inv

end Sys2Proof.Tests
end

section
/-! PROOFS. The statements of 00_scope.md: the floor remainder (R4), half and the cyclic distance (R5), and that no step
changes a parameter (R3). -/

namespace Sys2Proof.Machine

-- The floor remainder (R4).

/-- The divisor divides what the reduction takes off. -/
theorem dvd_sub_fmod (x q : Int) : q ∣ x - fmod x q := Int.dvd_self_sub_emod

/-- A number in [0, q) congruent to x is the reduction of x. -/
theorem eq_fmod_of_dvd_sub {x q r : Int} (h0 : 0 ≤ r) (hlt : r < q) (hdvd : q ∣ x - r) : r = fmod x q := by
  have hcongr : r % q = x % q := Int.modEq_iff_dvd.mpr hdvd
  rwa [Int.emod_eq_of_lt h0 hlt] at hcongr

theorem fmod_zero_left (q : Int) : fmod 0 q = 0 := Int.zero_emod q

/-- Settles O1: the remainder is in range and congruent to x, and two numbers of [0, q) congruent to x are equal. -/
theorem fmodIsTheFloorRemainder : Obligations.FmodIsTheFloorRemainder := by
  refine ⟨fun x q hq => ?_, by decide, by decide, by decide, fun q _ => fmod_zero_left q⟩
  obtain ⟨hnonneg, hlt⟩ := fmod_range x q hq
  exact ⟨⟨hnonneg, hlt, dvd_sub_fmod x q⟩, fun r => eq_fmod_of_dvd_sub⟩

-- The cyclic distance (R5).

/-- The rule's formula, with the absolute value of the integers for the model's `natAbs`. -/
theorem cdist_eq_min_abs (a b q : Int) : cdist a b q = min |a - b| (q - |a - b|) := by
  rw [cdist, Int.natCast_natAbs]

theorem cdist_self (a : Int) {q : Int} (hq : 0 ≤ q) : cdist a a q = 0 := by
  simpa [cdist_eq_min_abs] using hq

theorem cdist_comm (a b q : Int) : cdist a b q = cdist b a q := by
  rw [cdist_eq_min_abs, cdist_eq_min_abs, abs_sub_comm]

theorem cdist_nonneg {a b q : Int} (h : |a - b| ≤ q) : 0 ≤ cdist a b q := by
  rw [cdist_eq_min_abs]
  exact le_min (abs_nonneg _) (sub_nonneg.mpr h)

/-- The forward and the backward difference add up to q, so the smaller one is at most half of it. -/
theorem cdist_le_half (a b : Int) (q : Nat) : cdist a b q ≤ half q := by
  rw [cdist_eq_min_abs, half]
  omega

/-- Settles O2: each clause is one lemma on `cdist`; two numbers of [0, q) differ by at most q. -/
theorem halfAndCyclicDistance : Obligations.HalfAndCyclicDistance := by
  refine ⟨fun _ => rfl, rfl, fun a b q ha hb => ?_⟩
  have hdiff : |(a : Int) - b| ≤ q := abs_le.mpr (by omega)
  exact ⟨cdist_eq_min_abs a b q, cdist_self a (Int.natCast_nonneg q), cdist_comm a b q, cdist_nonneg hdiff,
    cdist_le_half a b q⟩

-- The parameters (R3, log 1).

@[simp] theorem State.afterReset_params (s : State) : s.afterReset.params = s.params := rfl

/-- Whether it holds, faults or completes, a command keeps the parameters. -/
theorem exec_params {i : Instr} {s t : State} (h : exec i s = .next t) : t.params = s.params := by
  rcases exec_cases h with ⟨rfl, _⟩ | hfaulted | hcompleted
  · exact State.hold_params s (encode i)
  · obtain ⟨_, _, ht⟩ := hfaulted.next
    rw [ht]
  · obtain ⟨_, hparams, _⟩ := hcompleted.ports
    exact hparams

/-- A word that runs is discarded, or raises ILLEGAL_COMMAND, or is a command. -/
theorem runCommand_params {w : Cmd} {s t : State} (h : runCommand w s = .next t) : t.params = s.params := by
  rcases runCommand_next h with ⟨_, _, rfl⟩ | ⟨_, ⟨_, _, rfl⟩ | ⟨_, _, hexec⟩⟩
  · exact State.finish_params s
  · exact State.raise_params s .illegalCommand w
  · exact exec_params hexec

theorem Taken.params {w : Cmd} {s s' : State} (h : Taken w s s') : s'.params = s.params := by
  rw [h.keeps]

/-- Settles O21: a step resets, which keeps the parameters; or idles; or runs one word. -/
theorem parametersNeverChange : Obligations.ParametersNeverChange := by
  intro s t h
  rcases step_cases h with ⟨_, rfl⟩ | ⟨_, _, rfl⟩ | ⟨_, _, s', _, htaken, hrun⟩
  · exact State.afterReset_params s
  · rfl
  · exact (runCommand_params hrun).trans htaken.params

end Sys2Proof.Machine
end

section
/-! PROOFS. Decoding the word of a command gives the command (30_encoding.md R51, R52, R54, R56). -/

namespace Sys2Proof

-- The clauses of `encodeR_zero` and `encodeI_zero` that speak of fewer operands, as rewriting rules.

theorem zeroRR_encodeR {op : Nat} (h : op < 256) (rd ra : Reg) : zeroRR (encodeR op rd ra 0) = true :=
  (encodeR_zero h rd ra 0).2.1

theorem zeroRD_encodeR {op : Nat} (h : op < 256) (rd : Reg) : zeroRD (encodeR op rd 0 0) = true :=
  (encodeR_zero h rd 0 0).2.2.1

theorem zeroRA_encodeR {op : Nat} (h : op < 256) (ra : Reg) : zeroRA (encodeR op 0 ra 0) = true :=
  (encodeR_zero h 0 ra 0).2.2.2.1

theorem zeroIZ_encodeI {op : Nat} (h : op < 256) (imm : Imm) : zeroIZ (encodeI op 0 imm) = true :=
  (encodeI_zero h 0 imm).2

/-- Sub-form by sub-form: the must-be-zero bits of a command's word are zero and its fields read as written, so the
decoder, which looks the opcode up first, finds the command again. -/
theorem decode_encode (i : Instr) : decode (encode i) = .instr i := by
  cases i with
  | nop | clrf | setq | setk => rfl
  | setn _ | setsig _ | ldmsg _ => simp [decode, encode, whenZero, encodeI_fields, zeroIZ_encodeI]
  | load _ _ => simp [decode, encode, whenZero, encodeI_fields, encodeI_zero]
  | zero _ | sampu _ | sampg _ | ench _ | encr _ => simp [decode, encode, whenZero, encodeR_fields, zeroRD_encodeR]
  | store _ | ser _ => simp [decode, encode, whenZero, encodeR_fields, zeroRA_encodeR]
  | neg _ _ | smul _ _ | signal _ _ => simp [decode, encode, whenZero, encodeR_fields, zeroRR_encodeR]
  | add _ _ _ | sub _ _ _ | mul _ _ _ => simp [decode, encode, whenZero, encodeR_fields, encodeR_zero]

end Sys2Proof
end

section
/-! PROOFS. The coefficients every command writes are below the modulus, and as many as the dimension says (10_state.md R11,
R12). -/

namespace Sys2Proof.Machine

theorem two_le_of_legalModulus {q : Word} (h : legalModulus q = true) : 2 ≤ q.toNat := by
  simp only [legalModulus, Bool.and_eq_true, decide_eq_true_eq] at h
  exact h.1

theorem toNat_half (q : Word) : (BitVec.ofNat 64 (half q.toNat)).toNat = q.toNat / 2 := by
  rw [half, BitVec.toNat_ofNat]
  omega

/-- Reduced combinations of two lists are below the modulus: the coefficients of ADD, SUB and MUL. -/
theorem zipWith_coeff_lt {α β : Type} {q : Word} (hq : q ≠ 0) (f : α → β → Int) (a : List α) (b : List β) :
    ∀ x ∈ List.zipWith (fun x y => coeff (f x y) q) a b, x.toNat < q.toNat := by
  intro x hx
  rw [← List.map_uncurry_zip_eq_zipWith] at hx
  obtain ⟨p, _, rfl⟩ := List.mem_map.mp hx
  exact coeff_lt _ q hq

/-- Reduced images of a list are below the modulus: the coefficients of SMUL and LOAD. -/
theorem map_coeff_lt {α : Type} {q : Word} (hq : q ≠ 0) (f : α → Int) (a : List α) :
    ∀ x ∈ a.map fun x => coeff (f x) q, x.toNat < q.toNat := by
  intro x hx
  obtain ⟨y, _, rfl⟩ := List.mem_map.mp hx
  exact coeff_lt _ q hq

theorem negCoeffs_lt {q : Word} {a : List Word} (ha : ∀ x ∈ a, x.toNat < q.toNat) :
    ∀ x ∈ negCoeffs q a, x.toNat < q.toNat := by
  intro x hx
  obtain ⟨y, hy, rfl⟩ := List.mem_map.mp hx
  have := ha y hy
  split <;> bv_omega

theorem signalCoeff_lt {q : Word} (hq : 2 ≤ q.toNat) (x : Word) : (signalCoeff q x).toNat < q.toNat := by
  have := toNat_half q
  simp only [signalCoeff]
  split
  · simp; omega
  · omega

/-- Coefficients chosen bit by bit between two values below the modulus: those of ENCH and ENCR. -/
theorem map_ite_lt {q u v : Word} (bs : List Bool) (hu : u.toNat < q.toNat) (hv : v.toNat < q.toNat) :
    ∀ x ∈ bs.map fun b => if b then u else v, x.toNat < q.toNat := by
  intro x hx
  obtain ⟨b, _, rfl⟩ := List.mem_map.mp hx
  cases b
  · exact hv
  · exact hu

theorem length_msbBits (bs : List Byte) : (msbBits bs).length = 8 * bs.length := by
  simp [msbBits, List.length_flatMap, Nat.mul_comm]

theorem length_blockBits (h : List Byte → Config.Digest) (e : Config.Endian) (n : Nat) (m : List Byte) :
    (blockBits h e n m).length = 256 * ((n + 255) / 256) := by
  simp [blockBits, List.length_flatMap, length_msbBits, Nat.mul_comm]

theorem length_enchCoeffs (h : List Byte → Config.Digest) (e : Config.Endian) (n : Nat) (q : Word) (m : List Byte) :
    (enchCoeffs h e n q m).length = n := by
  simp only [enchCoeffs, List.length_map, List.length_take, length_blockBits]
  omega

theorem length_encrCoeffs (n : Nat) (m : List Byte) : (encrCoeffs n m).length = n := by
  simp [encrCoeffs]

theorem length_unpackBytes {len : Nat} {ws : List Word} (h : ws.length = messageWords len) :
    (unpackBytes len ws).length = len := by
  simp [unpackBytes, wordBytes, List.length_flatMap, h, messageWords]
  omega

end Sys2Proof.Machine
end

section
/-! PROOFS. What reset leaves (10_state.md R26), and that reset and every step keep the invariant (R11, R12, R16, R17, R20,
R21). -/

namespace Sys2Proof.Machine

variable {s t : State}

-- Reset.

theorem State.resetWith_inv {c : Config.Params} (hc : c.wellFormed = true) : (State.resetWith c).Inv where
  params := hc
  regs r e h := by simp at h
  ringN := .inl rfl
  ringQ := .inl rfl
  msgFits := Nat.zero_le _
  msgbuf := rfl
  msgHeld a := by simp [State.resetWith, Memory.read]
  noFault _ := ⟨rfl, rfl⟩
  inFault h := by simp [State.resetWith] at h
  inProgress w h := by simp [State.resetWith] at h

/-- Settles O8: after reset no register is valid, and each further item is a field of the reset state. -/
theorem resetLeavesTheTableOfValues : Obligations.ResetLeavesTheTableOfValues :=
  ⟨State.readReg_resetWith Config.Params.default, rfl, rfl, rfl, rfl, rfl, rfl, rfl, rfl, rfl, rfl, rfl⟩

/-- Settles O10: every register is invalid, every setting is 0, no fault stands and no command is in progress. -/
theorem resetMeetsTheInvariant : Obligations.ResetMeetsTheInvariant := fun _ => State.resetWith_inv

/-- The reset step differs from the state after reset in its inputs only. -/
theorem State.Inv.afterReset (hI : s.Inv) : s.afterReset.Inv :=
  { State.resetWith_inv hI.params with }

-- The shared operations.

/-- The invariant does not speak of DIN. -/
theorem State.Inv.setDin (hI : s.Inv) (din : List Word) : State.Inv { s with din := din } :=
  { hI with }

theorem State.Inv.acknowledge (hI : s.Inv) : s.acknowledge.Inv :=
  { hI with
    noFault := fun _ => ⟨rfl, rfl⟩
    inFault := fun h => by simp at h
    inProgress := fun w hw => ⟨rfl, (hI.inProgress w hw).2⟩ }

/-- A command that holds stands in `cur` as a legal word. -/
theorem State.Inv.holdCommand (hI : s.Inv) (hf : s.fault = false) (i : Instr) : (s.hold (encode i)).Inv :=
  hI.hold _ hf ⟨i, decode_encode i⟩

/-- A message of at most MSG_MAX bytes: MSG_MAX is below 2^16 (00_scope.md R3), so MSG_LEN is its length. -/
theorem State.Inv.setMessage (hI : s.Inv) {bs : List Byte} (hbs : bs.length ≤ s.params.msgMax) :
    (s.setMessage bs).Inv := by
  have hmax : s.params.msgMax ≤ 65535 := by
    have := hI.params
    simp only [Config.Params.wellFormed, Bool.and_eq_true, decide_eq_true_eq] at this
    omega
  have hlen : (s.setMessage bs).msgLen.toNat = bs.length := by
    rw [State.setMessage_msgLen, BitVec.toNat_ofNat, Nat.mod_eq_of_lt (by omega)]
  exact { hI with
    msgFits := hlen.trans_le hbs
    msgbuf := Memory.writeBytes_wf bs [] 0 rfl
    msgHeld := fun a => by
      rw [hlen, State.setMessage_msgbuf, Memory.read_writeBytes]
      by_cases ha : a < bs.length <;> simp [ha, Memory.read] }

-- Elements.

/-- The configured ring's tag with as many coefficients as RING_N says, each below RING_Q (40_element_transfer.md R70). -/
theorem State.Inv.ringElement (hI : s.Inv) (hn : s.ringN ≠ 0) (hq : s.ringQ ≠ 0) {c : List Word}
    (hlen : c.length = s.ringN.toNat) (hc : ∀ x ∈ c, x.toNat < s.ringQ.toNat) :
    Element.WF s.params.nMax ⟨s.ringN, s.ringQ, c⟩ :=
  ⟨hI.ringN.resolve_left hn, hI.ringQ.resolve_left hq, hlen, hc⟩

theorem State.Inv.two_le_ringQ (hI : s.Inv) (hq : s.ringQ ≠ 0) : 2 ≤ s.ringQ.toNat :=
  two_le_of_legalModulus (hI.ringQ.resolve_left hq)

-- What a command that completes writes.

theorem State.Inv.complete (hI : s.Inv) (rd : Reg) {e : Element} (he : e.WF s.params.nMax) : (s.writeReg rd e).finish.Inv :=
  (hI.writeReg rd e he).finish

/-- ADD, SUB, MUL: legal when `f` gives as many coefficients as the first source has, below the common modulus. -/
theorem twoSource_inv {cmd : Cmd} {rd ra rb : Reg} {f : Element → Element → List Word} (hI : s.Inv)
    (hlen : ∀ a b, a.c.length = a.n.toNat → b.c.length = a.n.toNat → (f a b).length = a.n.toNat)
    (hlt : ∀ a b, a.q ≠ 0 → ∀ x ∈ f a b, x.toNat < a.q.toNat)
    (h : withSources cmd ra rb s (fun a b => complete rd ⟨a.n, a.q, f a b⟩ s) = .next t) : t.Inv := by
  rcases twoSource_next h with ⟨_, rfl⟩ | ⟨a, b, ha, hb, ⟨_, rfl⟩ | ⟨hn, _, rfl⟩⟩
  · exact hI.raise _ _ nofun
  · exact hI.raise _ _ nofun
  · obtain ⟨han, haq, hac, _⟩ := hI.regs ra a ha
    obtain ⟨_, _, hbc, _⟩ := hI.regs rb b hb
    exact hI.complete rd ⟨han, haq, hlen a b hac (hn ▸ hbc), hlt a b (legalModulus_ne_zero _ haq)⟩

/-- NEG, SMUL, SIGNAL: legal when `f` gives as many coefficients as the source has, below its modulus. -/
theorem oneSource_inv {cmd : Cmd} {rd ra : Reg} {f : Element → List Word} (hI : s.Inv)
    (hlen : ∀ a, (f a).length = a.c.length)
    (hlt : ∀ a : Element, a.WF s.params.nMax → ∀ x ∈ f a, x.toNat < a.q.toNat)
    (h : withSource cmd ra s (fun a => complete rd ⟨a.n, a.q, f a⟩ s) = .next t) : t.Inv := by
  rcases oneSource_next h with ⟨_, rfl⟩ | ⟨a, ha, rfl⟩
  · exact hI.raise _ _ nofun
  · obtain ⟨han, haq, hac, hax⟩ := hI.regs ra a ha
    exact hI.complete rd ⟨han, haq, (hlen a).trans hac, hlt a ⟨han, haq, hac, hax⟩⟩

/-- SAMPU, SAMPG: legal when every single draw is below RING_Q. -/
theorem sampler_inv {i : Instr} {rd : Reg} {one : List EntropyAnswer → Draw Word} {causes : List Cause} (hI : s.Inv)
    (hf : s.fault = false) (hn : s.ringN ≠ 0) (hq : s.ringQ ≠ 0) (hcauses : .none ∉ causes)
    (hone : ∀ ent, (one ent).Ok (fun x => x.toNat < s.ringQ.toNat) causes ent)
    (h : finishDraw (encode i) rd s.ringN s.ringQ s (drawMany one s.ringN.toNat s.ent) = .next t) : t.Inv := by
  have hdraws := drawMany_ok hone s.ringN.toNat s.ent
  rcases finishDraw_next h with ⟨c, rest, hd, rfl⟩ | ⟨why, rest, hd, rfl⟩ | ⟨_, rfl⟩
  · obtain ⟨⟨hlen, hlt⟩, _⟩ := hdraws.got c rest hd
    exact (hI.setEnt rest).complete rd (hI.ringElement hn hq hlen hlt)
  · obtain ⟨hwhy, _⟩ := hdraws.fails why rest hd
    exact (hI.setEnt rest).raise why _ fun hnone => hcauses (hnone ▸ hwhy)
  · exact hI.holdCommand hf i

-- The commands.

theorem execSetn_inv {imm : Imm} (hI : s.Inv) (h : execSetn imm s = .next t) : t.Inv := by
  rcases execSetn_next h with ⟨hlegal, rfl⟩ | ⟨_, rfl⟩
  · exact State.Inv.finish { hI with ringN := .inr hlegal }
  · exact hI.raise _ _ nofun

theorem execSetq_inv (hI : s.Inv) (hf : s.fault = false) (h : execSetq s = .next t) : t.Inv := by
  rcases execSetq_next h with ⟨_, rfl⟩ | ⟨w, rest, _, ⟨hlegal, rfl⟩ | ⟨_, rfl⟩⟩
  · exact hI.holdCommand hf .setq
  · exact State.Inv.finish { hI with ringQ := .inr hlegal }
  · exact (hI.setDin rest).raise _ _ nofun

theorem execSetk_inv (hI : s.Inv) (hf : s.fault = false) (h : execSetk s = .next t) : t.Inv := by
  rcases execSetk_next h with ⟨_, rfl⟩ | ⟨w, rest, _, rfl⟩
  · exact hI.holdCommand hf .setk
  · exact State.Inv.finish { hI with }

theorem execSetsig_inv {imm : Imm} (hI : s.Inv) (h : execSetsig imm s = .next t) : t.Inv := by
  cases h
  exact State.Inv.finish { hI with }

theorem execZero_inv {rd : Reg} (hI : s.Inv) (h : execZero rd s = .next t) : t.Inv := by
  rcases execZero_next h with ⟨_, rfl⟩ | ⟨hn, hq, rfl⟩
  · exact hI.raise _ _ nofun
  · refine hI.complete rd (hI.ringElement hn hq List.length_replicate fun x hx => ?_)
    rw [List.eq_of_mem_replicate hx]
    exact Nat.zero_lt_of_lt (hI.two_le_ringQ hq)

theorem execLoad_inv {rd : Reg} {imm : Imm} (hI : s.Inv) (hf : s.fault = false) (h : execLoad rd imm s = .next t) :
    t.Inv := by
  rcases execLoad_next h with ⟨_, rfl⟩ | ⟨hn, hq, ⟨_, rfl⟩ | ⟨_, _, rfl⟩ | ⟨_, hd, rfl⟩⟩
  · exact hI.raise _ _ nofun
  · exact hI.raise _ _ nofun
  · exact hI.holdCommand hf (.load rd imm)
  · exact (hI.dropDin _).complete rd (hI.ringElement hn hq (by simpa using hd) (map_coeff_lt hq _ _))

theorem execStore_inv {ra : Reg} (hI : s.Inv) (h : execStore ra s = .next t) : t.Inv := by
  rcases execStore_next h with ⟨_, rfl⟩ | ⟨a, _, rfl⟩
  · exact hI.raise _ _ nofun
  · exact (hI.pushDout a.c).finish

theorem execSer_inv {ra : Reg} (hI : s.Inv) (h : execSer ra s = .next t) : t.Inv := by
  rcases execSer_next h with ⟨_, rfl⟩ | ⟨a, _, rfl⟩
  · exact hI.raise _ _ nofun
  · exact (hI.pushDout (serWords a)).finish

theorem execLdmsg_inv {imm : Imm} (hI : s.Inv) (hf : s.fault = false) (h : execLdmsg imm s = .next t) : t.Inv := by
  rcases execLdmsg_next h with ⟨_, rfl⟩ | ⟨hmax, ⟨_, rfl⟩ | ⟨hd, rfl⟩⟩
  · exact hI.raise _ _ nofun
  · exact hI.holdCommand hf (.ldmsg imm)
  · have hlen := length_unpackBytes (List.length_take_of_le hd)
    exact ((hI.dropDin _).setMessage (hlen.trans_le hmax)).finish

theorem execAdd_inv {rd ra rb : Reg} (hI : s.Inv) (h : execAdd rd ra rb s = .next t) : t.Inv :=
  twoSource_inv (f := fun a b => addCoeffs a.q a.c b.c) hI (fun a b ha hb => by simp [addCoeffs, ha, hb])
    (fun _ _ hq => zipWith_coeff_lt hq _ _ _) h

theorem execSub_inv {rd ra rb : Reg} (hI : s.Inv) (h : execSub rd ra rb s = .next t) : t.Inv :=
  twoSource_inv (f := fun a b => subCoeffs a.q a.c b.c) hI (fun a b ha hb => by simp [subCoeffs, ha, hb])
    (fun _ _ hq => zipWith_coeff_lt hq _ _ _) h

theorem execMul_inv {rd ra rb : Reg} (hI : s.Inv) (h : execMul rd ra rb s = .next t) : t.Inv :=
  twoSource_inv (f := fun a b => mulCoeffs a.n.toNat a.q a.c b.c) hI (fun _ _ _ _ => mulCoeffs_length _ _ _ _)
    (fun _ _ hq => zipWith_coeff_lt hq _ _ _) h

theorem execNeg_inv {rd ra : Reg} (hI : s.Inv) (h : execNeg rd ra s = .next t) : t.Inv :=
  oneSource_inv (f := fun a => negCoeffs a.q a.c) hI (fun _ => List.length_map _)
    (fun _ ⟨_, _, _, ha⟩ => negCoeffs_lt ha) h

theorem execSmul_inv {rd ra : Reg} (hI : s.Inv) (h : execSmul rd ra s = .next t) : t.Inv :=
  oneSource_inv (f := fun a => smulCoeffs a.q s.k a.c) hI (fun _ => List.length_map _)
    (fun _ ⟨_, hq, _, _⟩ => map_coeff_lt (legalModulus_ne_zero _ hq) _ _) h

theorem execSignal_inv {rd ra : Reg} (hI : s.Inv) (h : execSignal rd ra s = .next t) : t.Inv :=
  oneSource_inv (f := fun a => a.c.map (signalCoeff a.q)) hI (fun _ => List.length_map _)
    (fun _ ⟨_, hq, _, _⟩ => List.forall_mem_map.mpr fun x _ => signalCoeff_lt (two_le_of_legalModulus hq) x) h

theorem execSampu_inv {rd : Reg} (hI : s.Inv) (hf : s.fault = false) (h : execSampu rd s = .next t) : t.Inv := by
  rcases execSampu_next h with ⟨_, rfl⟩ | ⟨hn, hq, h⟩
  · exact hI.raise _ _ nofun
  · exact sampler_inv hI hf hn hq (by decide) (drawBelow_ok _ _ _ 0 s.ringQ.isLt) h

theorem sampgWith_inv {g : Word → Word → Imm → Int} {rd : Reg} (hI : s.Inv) (hf : s.fault = false)
    (h : sampgWith g rd s = .next t) : t.Inv := by
  rcases sampgWith_next h with ⟨_, rfl⟩ | ⟨hn, hq, h⟩
  · exact hI.raise _ _ nofun
  · exact sampler_inv hI hf hn hq (by decide) (drawGauss_ok g s.ringQ s.sigma hq) h

theorem enchWith_inv {hash : List Byte → Config.Digest} {rd : Reg} (hI : s.Inv) (hf : s.fault = false)
    (h : enchWith hash rd s = .next t) : t.Inv := by
  rcases enchWith_next h with ⟨_, rfl⟩ | ⟨hn, hq, ⟨_, rfl⟩ | ⟨_, m, _, rfl⟩⟩
  · exact hI.raise _ _ nofun
  · exact hI.holdCommand hf (.ench rd)
  · have h2 := hI.two_le_ringQ hq
    have hhalf := toNat_half s.ringQ
    exact hI.complete rd (hI.ringElement hn hq (length_enchCoeffs ..)
      (map_ite_lt _ (by omega) (Nat.zero_lt_of_lt h2)))

theorem execEncr_inv {rd : Reg} (hI : s.Inv) (h : execEncr rd s = .next t) : t.Inv := by
  rcases execEncr_next h with ⟨_, rfl⟩ | ⟨hn, hq, ⟨_, rfl⟩ | ⟨_, m, _, rfl⟩⟩
  · exact hI.raise _ _ nofun
  · exact hI.raise _ _ nofun
  · have h2 := hI.two_le_ringQ hq
    exact hI.complete rd (hI.ringElement hn hq (length_encrCoeffs ..)
      (map_ite_lt _ h2 (Nat.zero_lt_of_lt h2)))

/-- Every command keeps the invariant; all but CLRF run with FAULT = 0 only (60_exceptions.md R147). -/
theorem exec_inv {i : Instr} (hI : s.Inv) (hf : i ≠ .clrf → s.fault = false) (h : exec i s = .next t) : t.Inv := by
  cases i with
  | nop => cases h; exact hI.finish
  | clrf => cases h; exact hI.acknowledge.finish
  | setn imm => exact execSetn_inv hI h
  | setq => exact execSetq_inv hI (hf nofun) h
  | setk => exact execSetk_inv hI (hf nofun) h
  | setsig imm => exact execSetsig_inv hI h
  | zero rd => exact execZero_inv hI h
  | load rd imm => exact execLoad_inv hI (hf nofun) h
  | store ra => exact execStore_inv hI h
  | ser ra => exact execSer_inv hI h
  | ldmsg imm => exact execLdmsg_inv hI (hf nofun) h
  | add rd ra rb => exact execAdd_inv hI h
  | sub rd ra rb => exact execSub_inv hI h
  | neg rd ra => exact execNeg_inv hI h
  | mul rd ra rb => exact execMul_inv hI h
  | smul rd ra => exact execSmul_inv hI h
  | signal rd ra => exact execSignal_inv hI h
  | sampu rd => exact execSampu_inv hI (hf nofun) h
  | sampg rd => exact sampgWith_inv hI (hf nofun) h
  | ench rd => exact enchWith_inv hI (hf nofun) h
  | encr rd => exact execEncr_inv hI h

-- Words and steps.

theorem decode_clrfWord : decode clrfWord = .instr .clrf := rfl

theorem runCommand_inv {w : Cmd} (hI : s.Inv) (h : runCommand w s = .next t) : t.Inv := by
  rcases runCommand_next h with ⟨_, _, rfl⟩ | ⟨hruns, ⟨_, _, rfl⟩ | ⟨i, hw, hexec⟩⟩
  · exact hI.finish
  · exact hI.raise _ _ nofun
  · refine exec_inv hI (fun hi => ?_) hexec
    have hclrf : w ≠ clrfWord := by
      rintro rfl
      rw [decode_clrfWord] at hw
      exact hi (Decoded.instr.inj hw).symm
    simpa [hclrf] using hruns

/-- No command's meaning looks at BUSY, so a word runs the same whether or not it stands in `cur`. -/
theorem runCommand_finish (w : Cmd) (s : State) : runCommand w s.finish = runCommand w s := by
  unfold runCommand
  cases decode w with
  | illegal _ => rfl
  | instr i => cases i <;> rfl

/-- The state in which a word runs meets the invariant but for the word itself, which may be illegal or about to be
discarded. -/
theorem Taken.finish_inv {w : Cmd} {s s' : State} (htaken : Taken w s s') (hI : s.Inv) : s'.finish.Inv := by
  rw [htaken.keeps]
  exact { hI.finish with }

/-- Settles O11: a step resets, which leaves the invariant; or idles; or runs one word, from a state that meets the
invariant once the word is taken out of `cur`, where its meaning does not look. -/
theorem stepKeepsTheInvariant : Obligations.StepKeepsTheInvariant := by
  intro s t hI h
  rcases step_cases h with ⟨_, rfl⟩ | ⟨_, _, rfl⟩ | ⟨_, w, s', _, htaken, hrun⟩
  · exact hI.afterReset
  · exact hI
  · rw [← runCommand_finish] at hrun
    exact runCommand_inv (htaken.finish_inv hI) hrun

end Sys2Proof.Machine
end

section
/-! PROOFS. What a command leaves of the registers and of DOUT (10_state.md R14, R23), and the message of a state that meets
the invariant (R20). -/

namespace Sys2Proof.Machine

variable {s t : State}

-- Registers (R14).

/-- A command that faults leaves every register (60_exceptions.md R146). -/
theorem Faulted.readReg {i : Instr} (h : Faulted i s t) (r : Reg) : t.readReg r = s.readReg r := by
  obtain ⟨_, _, ht⟩ := h.next
  rw [ht]
  rfl

theorem ne_clrf_of_destination {i : Instr} {r : Reg} (h : destination i = some r) : i ≠ .clrf := by
  rintro rfl
  simp [destination] at h

/-- Settles O19: a command that holds or faults leaves the registers, and one that completes changes its destination
only, which it makes valid. -/
theorem onlyTheDestinationChanges : Obligations.OnlyTheDestinationChanges := by
  intro i s t r h hchanged
  rcases exec_cases h with ⟨rfl, _⟩ | hfaulted | hcompleted
  · exact absurd (State.readReg_hold s (encode i) r) hchanged
  · exact absurd (hfaulted.readReg r) hchanged
  · have hdest : destination i = some r := by
      by_contra hother
      exact hchanged (hcompleted.others r hother)
    obtain ⟨hfault, _, _⟩ := hcompleted.fault (ne_clrf_of_destination hdest)
    exact ⟨hdest, hcompleted.cur, hfault, hcompleted.written r hdest⟩

-- DOUT (R23).

/-- Whether it holds, faults or completes, a command only appends to DOUT. -/
theorem exec_dout {i : Instr} (h : exec i s = .next t) : s.dout <+: t.dout := by
  rcases exec_cases h with ⟨rfl, _⟩ | hfaulted | hcompleted
  · exact List.prefix_rfl
  · obtain ⟨_, _, ht⟩ := hfaulted.next
    rw [ht]
  · exact hcompleted.dout

theorem runCommand_dout {w : Cmd} (h : runCommand w s = .next t) : s.dout <+: t.dout := by
  rcases runCommand_next h with ⟨_, _, rfl⟩ | ⟨_, ⟨_, _, rfl⟩ | ⟨_, _, hexec⟩⟩
  · exact List.prefix_rfl
  · exact List.prefix_rfl
  · exact exec_dout hexec

theorem Taken.dout {w : Cmd} {s s' : State} (h : Taken w s s') : s'.dout = s.dout := by
  rw [h.keeps]

/-- Settles O22: without a reset a step idles, or takes a word, which leaves DOUT, and runs it. -/
theorem doutOnlyGrows : Obligations.DoutOnlyGrows := by
  intro s t hrst h
  rcases step_cases h with ⟨hreset, _⟩ | ⟨_, _, rfl⟩ | ⟨_, _, s', _, htaken, hrun⟩
  · rw [hrst] at hreset
    cases hreset
  · exact List.prefix_rfl
  · exact htaken.dout ▸ runCommand_dout hrun

-- The message (R20).

/-- The bytes read one after another are those the indexes hold. -/
theorem Memory.read_of_readBytes {m : Memory} {len a : Nat} {bs : List Byte} (h : m.readBytes a len = some bs) :
    ∀ i < bs.length, m.read (a + i) = bs[i]? := by
  induction len generalizing a bs with
  | zero =>
    cases h
    exact fun i hi => absurd hi (Nat.not_lt_zero i)
  | succ len ih =>
    rw [Memory.readBytes] at h
    split at h
    next v vs hv hvs =>
      cases h
      intro i hi
      cases i with
      | zero => exact hv
      | succ i =>
        have := ih hvs i (Nat.lt_of_succ_lt_succ hi)
        rwa [Nat.add_assoc, Nat.add_comm 1 i] at this
    next => cases h

/-- Settles O60: the invariant says that MSGBUF holds every byte below MSG_LEN. -/
theorem theMessageIsPresent : Obligations.TheMessageIsPresent := by
  intro s hI
  obtain ⟨m, hm, hlen⟩ := s.message_isSome fun a => (hI.msgHeld a).mpr
  refine ⟨m, hm, hlen, fun a ha => ?_⟩
  simpa using Memory.read_of_readBytes hm a ha

end Sys2Proof.Machine
end

section
/-! PROOFS. How a step takes a command word and runs it (20_memory.md R32, R42; 30_encoding.md R56; 60_exceptions.md R147), and
what a command that waits leaves (20_memory.md R33, 70_reset_and_hazards.md R179). -/

namespace Sys2Proof.Machine

variable {s t : State}

-- The word a step runs (R32, R42).

/-- A word that decodes runs its command, unless FAULT = 1 discards it (60_exceptions.md R147). -/
theorem runCommand_of_decode {w : Cmd} {i : Instr} (hw : decode w = .instr i) (hruns : s.fault = false ∨ w = clrfWord) :
    runCommand w s = exec i s := by
  have hkept : ¬(s.fault = true ∧ w ≠ clrfWord) := by
    rintro ⟨hfault, hne⟩
    rcases hruns with hclear | hclrf
    · simp [hclear] at hfault
    · exact hne hclrf
  rw [runCommand, if_neg hkept, hw]

/-- A command in progress is run again. -/
theorem step_of_inProgress {w : Cmd} (hrst : s.rstIn = false) (hcur : s.cur = some w) : step s = runCommand w s := by
  simp [step, engineStep, hrst, hcur]

/-- With no command in progress the head of the CMD port is taken and run. -/
theorem step_of_offered {w : Cmd} {rest : List Cmd} (hrst : s.rstIn = false) (hcur : s.cur = none)
    (hoffer : s.cmdIn = w :: rest) : step s = runCommand w { s with cur := some w, cmdIn := rest } := by
  simp [step, engineStep, hrst, hcur, hoffer]

/-- Settles O13: a step runs the word it takes, or the word in progress, and running a word that decodes is its command's
meaning. -/
theorem stepRunsTheDecodedCommand : Obligations.StepRunsTheDecodedCommand := by
  intro s w i hrst hw hruns
  constructor
  · intro rest hcur hoffer
    exact (step_of_offered hrst hcur hoffer).trans (runCommand_of_decode hw hruns)
  · intro hcur
    exact (step_of_inProgress hrst hcur).trans (runCommand_of_decode hw hruns)

-- The CMD port (R32).

@[simp] theorem State.afterReset_cmdIn (s : State) : s.afterReset.cmdIn = s.cmdIn := rfl

/-- Whether it holds, faults or completes, a command's meaning leaves the CMD port. -/
theorem exec_cmdIn {i : Instr} (h : exec i s = .next t) : t.cmdIn = s.cmdIn := by
  rcases exec_cases h with ⟨rfl, _⟩ | hfaulted | hcompleted
  · exact State.hold_cmdIn s (encode i)
  · obtain ⟨_, _, ht⟩ := hfaulted.next
    rw [ht]
  · obtain ⟨hcmdIn, _⟩ := hcompleted.ports
    exact hcmdIn

theorem runCommand_cmdIn {w : Cmd} (h : runCommand w s = .next t) : t.cmdIn = s.cmdIn := by
  rcases runCommand_next h with ⟨_, _, rfl⟩ | ⟨_, ⟨_, _, rfl⟩ | ⟨_, _, hexec⟩⟩
  · exact State.finish_cmdIn s
  · exact State.raise_cmdIn s .illegalCommand w
  · exact exec_cmdIn hexec

/-- The word that runs was in progress, or was the head of the CMD port while BUSY = 0. -/
theorem Taken.cmdIn {w : Cmd} {s' : State} (h : Taken w s s') :
    s'.cmdIn = s.cmdIn ∨ (s.busy = false ∧ s.cmdIn = w :: s'.cmdIn) := by
  rcases h with ⟨_, rfl⟩ | ⟨rest, hcur, hoffer, rfl⟩
  · exact .inl rfl
  · exact .inr ⟨by simp [State.busy, hcur], hoffer⟩

/-- Settles O23: a reset and an idle step leave the CMD port, and so does running a word once it is taken. -/
theorem commandsAreTakenInOrder : Obligations.CommandsAreTakenInOrder := by
  intro s t h
  rcases step_cases h with ⟨_, rfl⟩ | ⟨_, _, rfl⟩ | ⟨_, w, s', _, htaken, hrun⟩
  · exact .inl (State.afterReset_cmdIn s)
  · exact .inl rfl
  · rw [runCommand_cmdIn hrun]
    exact htaken.cmdIn.imp_right fun ⟨hidle, hhead⟩ => ⟨hidle, w, hhead⟩

-- Holding (R33, R179).

/-- A command that faults is over (60_exceptions.md R146). -/
theorem Faulted.cur {i : Instr} (h : Faulted i s t) : t.cur = none := by
  obtain ⟨_, _, ht⟩ := h.next
  rw [ht]

/-- Settles O24: a command that faults or completes is over, so one that is not over holds. -/
theorem heldCommandChangesNothing : Obligations.HeldCommandChangesNothing := by
  intro i s t h hbusy
  rcases exec_cases h with ⟨hheld, hwaits⟩ | hfaulted | hcompleted
  · exact ⟨hheld, hwaits⟩
  · exact absurd hfaulted.cur hbusy
  · exact absurd hcompleted.cur hbusy

end Sys2Proof.Machine
end

section
/-! PROOFS. Each command has one word (30_encoding.md R51, R52, R54, R55), and words the spec writes out (R57). -/

namespace Sys2Proof

open Laws.OwnOpcode (opcodeOf)

/-- Settles O4: `decode_encode`, for every command. -/
theorem decodeOfEncode : Obligations.DecodeOfEncode :=
  decode_encode

/-- Settles O7: a word the spec writes out for a command is that command's word; two more words are illegal. -/
theorem specWordsDecode : Obligations.SpecWordsDecode :=
  ⟨decode_encode .nop, decode_encode (.setn 1024), decode_encode (.load 3 8), decode_encode (.add 3 1 2),
    decode_encode (.sampg 2), decode_encode (.encr 6), rfl, rfl⟩

-- A word is the word of its fields (R51, R52).

theorem whenZero_eq_instr {zero : Bool} {i j : Instr} : whenZero zero i = .instr j ↔ zero = true ∧ i = j := by
  cases zero <;> simp [whenZero]

variable {w : Cmd} {op : Nat}

-- A narrower sub-form is a wider one with a further field zero.

theorem zeroRR_iff : zeroRR w = true ↔ rbField w = 0 ∧ zeroRRR w = true := by
  simp only [zeroRR, zeroRRR, rbField, bitField, beq_iff_eq, Fin.ext_iff, Fin.val_ofNat, Fin.val_zero]
  omega

theorem zeroRD_iff : zeroRD w = true ↔ raField w = 0 ∧ zeroRR w = true := by
  simp only [zeroRD, zeroRR, raField, bitField, beq_iff_eq, Fin.ext_iff, Fin.val_ofNat, Fin.val_zero]
  omega

theorem zeroRA_iff : zeroRA w = true ↔ rdField w = 0 ∧ zeroRR w = true := by
  simp only [zeroRA, zeroRR, rdField, bitField, Bool.and_eq_true, beq_iff_eq, Fin.ext_iff, Fin.val_ofNat, Fin.val_zero]
  omega

theorem zeroRZ_iff : zeroRZ w = true ↔ rdField w = 0 ∧ zeroRD w = true := by
  simp only [zeroRZ, zeroRD, rdField, bitField, beq_iff_eq, Fin.ext_iff, Fin.val_ofNat, Fin.val_zero]
  omega

theorem zeroIZ_iff : zeroIZ w = true ↔ rdField w = 0 ∧ zeroID w = true := by
  simp only [zeroIZ, zeroID, rdField, bitField, beq_iff_eq, Fin.ext_iff, Fin.val_ofNat, Fin.val_zero]
  omega

theorem encodeR_of_zeroRRR (hop : opField w = op) (hzero : zeroRRR w = true) :
    encodeR op (rdField w) (raField w) (rbField w) = w := by
  refine BitVec.eq_of_toNat_eq ?_
  have hw := w.isLt
  simp only [opField, zeroRRR, bitField, beq_iff_eq] at hop hzero
  rw [encodeR_toNat (by omega)]
  simp only [rdField, raField, rbField, bitField, Fin.val_ofNat]
  omega

theorem encodeR_of_zeroRR (hop : opField w = op) (hzero : zeroRR w = true) :
    encodeR op (rdField w) (raField w) 0 = w := by
  obtain ⟨hrb, hrrr⟩ := zeroRR_iff.mp hzero
  have hword := encodeR_of_zeroRRR hop hrrr
  rwa [hrb] at hword

theorem encodeR_of_zeroRD (hop : opField w = op) (hzero : zeroRD w = true) : encodeR op (rdField w) 0 0 = w := by
  obtain ⟨hra, hrr⟩ := zeroRD_iff.mp hzero
  have hword := encodeR_of_zeroRR hop hrr
  rwa [hra] at hword

theorem encodeR_of_zeroRA (hop : opField w = op) (hzero : zeroRA w = true) : encodeR op 0 (raField w) 0 = w := by
  obtain ⟨hrd, hrr⟩ := zeroRA_iff.mp hzero
  have hword := encodeR_of_zeroRR hop hrr
  rwa [hrd] at hword

theorem encodeR_of_zeroRZ (hop : opField w = op) (hzero : zeroRZ w = true) : encodeR op 0 0 0 = w := by
  obtain ⟨hrd, hd⟩ := zeroRZ_iff.mp hzero
  have hword := encodeR_of_zeroRD hop hd
  rwa [hrd] at hword

theorem encodeI_of_zeroID (hop : opField w = op) (hzero : zeroID w = true) :
    encodeI op (rdField w) (immField w) = w := by
  refine BitVec.eq_of_toNat_eq ?_
  have hw := w.isLt
  simp only [opField, zeroID, bitField, beq_iff_eq] at hop hzero
  rw [encodeI_toNat (by omega)]
  simp only [rdField, immField, bitField, Fin.val_ofNat, BitVec.toNat_ofNat]
  omega

theorem encodeI_of_zeroIZ (hop : opField w = op) (hzero : zeroIZ w = true) : encodeI op 0 (immField w) = w := by
  obtain ⟨hrd, hid⟩ := zeroIZ_iff.mp hzero
  have hword := encodeI_of_zeroID hop hid
  rwa [hrd] at hword

-- A command's sub-form and fields (R51, R52, R54).

/-- The sub-forms of the R and I formats. -/
inductive SubForm where
  | rrr | rr | rd | ra | rz | id | iz

/-- The decoder's check of a sub-form's must-be-zero bits. -/
def SubForm.zeroBits : SubForm → Cmd → Bool
  | .rrr => zeroRRR
  | .rr => zeroRR
  | .rd => zeroRD
  | .ra => zeroRA
  | .rz => zeroRZ
  | .id => zeroID
  | .iz => zeroIZ

/-- The sub-form R54 gives a command. -/
def Instr.subForm : Instr → SubForm
  | .nop | .clrf | .setq | .setk => .rz
  | .setn _ | .setsig _ | .ldmsg _ => .iz
  | .load _ _ => .id
  | .zero _ | .sampu _ | .sampg _ | .ench _ | .encr _ => .rd
  | .store _ | .ser _ => .ra
  | .neg _ _ | .smul _ _ | .signal _ _ => .rr
  | .add _ _ _ | .sub _ _ _ | .mul _ _ _ => .rrr

/-- The command with its operands read from the fields of `w`. -/
def Instr.withFields (w : Cmd) : Instr → Instr
  | .nop => .nop | .clrf => .clrf | .setq => .setq | .setk => .setk
  | .setn _ => .setn (immField w) | .setsig _ => .setsig (immField w) | .ldmsg _ => .ldmsg (immField w)
  | .load _ _ => .load (rdField w) (immField w)
  | .zero _ => .zero (rdField w)
  | .sampu _ => .sampu (rdField w) | .sampg _ => .sampg (rdField w)
  | .ench _ => .ench (rdField w) | .encr _ => .encr (rdField w)
  | .store _ => .store (raField w) | .ser _ => .ser (raField w)
  | .neg _ _ => .neg (rdField w) (raField w)
  | .smul _ _ => .smul (rdField w) (raField w)
  | .signal _ _ => .signal (rdField w) (raField w)
  | .add _ _ _ => .add (rdField w) (raField w) (rbField w)
  | .sub _ _ _ => .sub (rdField w) (raField w) (rbField w)
  | .mul _ _ _ => .mul (rdField w) (raField w) (rbField w)

theorem Instr.mnemonic_withFields (w : Cmd) (i : Instr) : (i.withFields w).mnemonic = i.mnemonic := by
  cases i <;> rfl

-- The decoder (R56).

/-- A listed opcode chooses its command, the check of that command's sub-form, and the fields. -/
theorem decode_of_opField {i : Instr} (hop : opField w = opcodeOf i) :
    decode w = whenZero (i.subForm.zeroBits w) (i.withFields w) := by
  rw [decode, hop]
  cases i <;> rfl

theorem opField_of_decode {i : Instr} (h : decode w = .instr i) : opField w = opcodeOf i := by
  unfold decode at h
  split at h
  case h_22 => cases h -- an opcode R54 does not list
  all_goals
    obtain ⟨_, rfl⟩ := whenZero_eq_instr.mp h
    assumption

theorem decode_eq_instr_iff {i : Instr} :
    decode w = .instr i ↔ opField w = opcodeOf i ∧ i.subForm.zeroBits w = true ∧ i.withFields w = i := by
  constructor
  · intro h
    have hop := opField_of_decode h
    rw [decode_of_opField hop, whenZero_eq_instr] at h
    exact ⟨hop, h⟩
  · rintro ⟨hop, hzero⟩
    rw [decode_of_opField hop, whenZero_eq_instr]
    exact hzero

/-- Sub-form by sub-form: a word that passes the check is the word of its opcode and fields. -/
theorem encode_withFields {i : Instr} (hop : opField w = opcodeOf i) (hzero : i.subForm.zeroBits w = true) :
    encode (i.withFields w) = w := by
  cases i with
  | nop | clrf | setq | setk => exact encodeR_of_zeroRZ hop hzero
  | setn _ | setsig _ | ldmsg _ => exact encodeI_of_zeroIZ hop hzero
  | load _ _ => exact encodeI_of_zeroID hop hzero
  | zero _ | sampu _ | sampg _ | ench _ | encr _ => exact encodeR_of_zeroRD hop hzero
  | store _ | ser _ => exact encodeR_of_zeroRA hop hzero
  | neg _ _ | smul _ _ | signal _ _ => exact encodeR_of_zeroRR hop hzero
  | add _ _ _ | sub _ _ _ | mul _ _ _ => exact encodeR_of_zeroRRR hop hzero

/-- Settles O5: a word that decodes has the command's opcode, passes the sub-form's check, and its fields are the operands. -/
theorem encodeOfDecode : Obligations.EncodeOfDecode := by
  intro w i h
  obtain ⟨hop, hzero, hfields⟩ := decode_eq_instr_iff.mp h
  rw [← hfields]
  exact encode_withFields hop hzero

end Sys2Proof
end

section
/-! PROOFS. The decoder agrees with the opcode map, and an unmatched word is illegal (30_encoding.md R54, R55, R56). -/

namespace Sys2Proof

open Laws.OwnOpcode (opcodeOf)

variable {w : Cmd}

-- Masks.

/-- The mask of bits `hi:lo`. -/
def fieldMask (hi lo : Nat) : Cmd := BitVec.ofNat 32 ((2 ^ (hi + 1 - lo) - 1) <<< lo)

/-- Masking keeps a field in its place. -/
theorem toNat_and_fieldMask (w : Cmd) (hi lo : Nat) : (w &&& fieldMask hi lo).toNat = bitField w hi lo * 2 ^ lo := by
  have hw : bitField w hi lo * 2 ^ lo < 2 ^ 32 :=
    calc bitField w hi lo * 2 ^ lo ≤ w.toNat / 2 ^ lo * 2 ^ lo := Nat.mul_le_mul_right _ (Nat.mod_le _ _)
      _ ≤ w.toNat := Nat.div_mul_le_self _ _
      _ < 2 ^ 32 := w.isLt
  refine Nat.eq_of_testBit_eq fun k => ?_
  rw [← Nat.mod_eq_of_lt hw, ← Nat.shiftLeft_eq, bitField, ← Nat.shiftRight_eq_div_pow, fieldMask]
  simp only [BitVec.toNat_and, BitVec.toNat_ofNat, Nat.testBit_and, Nat.testBit_mod_two_pow, Nat.testBit_shiftLeft,
    Nat.testBit_two_pow_sub_one, Nat.testBit_shiftRight]
  by_cases hlo : lo ≤ k
  · simp only [hlo, Nat.add_sub_of_le hlo]
    ac_rfl
  · simp [hlo]

theorem and_fieldMask_eq_iff {hi lo v : Nat} (hv : v * 2 ^ lo < 2 ^ 32) :
    w &&& fieldMask hi lo = BitVec.ofNat 32 (v * 2 ^ lo) ↔ bitField w hi lo = v := by
  rw [← BitVec.toNat_inj, toNat_and_fieldMask, BitVec.toNat_ofNat, Nat.mod_eq_of_lt hv]
  exact Nat.mul_left_inj (by positivity)

@[simp] theorem and_fieldMask_eq_zero_iff {hi lo : Nat} : w &&& fieldMask hi lo = 0#32 ↔ bitField w hi lo = 0 := by
  simpa using and_fieldMask_eq_iff (w := w) (hi := hi) (lo := lo) (v := 0) (by simp)

/-- Under part of a mask the rest of the mask does not count. -/
theorem and_or_and_self {n : Nat} (x a b : BitVec n) : x &&& (a ||| b) &&& a = x &&& a := by
  ext k
  grind

/-- A compare under the mask `a ||| b` with a pattern within `a` apart from `b`: the bits under `a` are the pattern's, and
those under `b` are zero. -/
theorem and_or_eq_iff {n : Nat} {x a b p : BitVec n} (ha : p &&& a = p) (hb : a &&& b = 0#n) :
    x &&& (a ||| b) = p ↔ x &&& a = p ∧ x &&& b = 0#n := by
  constructor
  · intro h
    constructor
    · rw [← and_or_and_self x a b, h, ha]
    · rw [← and_or_and_self x b a, BitVec.or_comm, h, ← ha, BitVec.and_assoc, hb, BitVec.and_zero]
  · rintro ⟨hxa, hxb⟩
    rw [BitVec.and_or_distrib_left, hxa, hxb, BitVec.or_zero]

-- The sub-forms' masks (R51, R52).

/-- A sub-form's must-be-zero bits. -/
def SubForm.zeroMask : SubForm → Cmd
  | .rrr => fieldMask 14 0
  | .rr => fieldMask 17 0
  | .rd => fieldMask 20 0
  | .ra => fieldMask 23 21 ||| fieldMask 17 0
  | .rz => fieldMask 23 0
  | .id => fieldMask 20 16
  | .iz => fieldMask 23 16

theorem SubForm.and_zeroMask_eq_zero_iff (f : SubForm) : w &&& f.zeroMask = 0#32 ↔ f.zeroBits w = true := by
  cases f with
  | rrr => simp [zeroMask, zeroBits, zeroRRR]
  | rr => simp [zeroMask, zeroBits, zeroRR]
  | rd => simp [zeroMask, zeroBits, zeroRD]
  | ra => simp [zeroMask, zeroBits, zeroRA, BitVec.and_or_distrib_left]
  | rz => simp [zeroMask, zeroBits, zeroRZ]
  | id => simp [zeroMask, zeroBits, zeroID]
  | iz => simp [zeroMask, zeroBits, zeroIZ]

/-- The opcode field is apart from every sub-form's must-be-zero bits. -/
theorem SubForm.opMask_and_zeroMask (f : SubForm) : fieldMask 31 24 &&& f.zeroMask = 0#32 := by
  cases f <;> decide

-- The rows (R54).

/-- A command's row of the opcode map. -/
def Instr.row (i : Instr) : OpcodeRow :=
  ⟨i.mnemonic, BitVec.ofNat 32 (opcodeOf i * 2 ^ 24), fieldMask 31 24 ||| i.subForm.zeroMask⟩

theorem opcodeMap_eq_map_row :
    opcodeMap = [.nop, .clrf, .setn 0, .setq, .setk, .setsig 0, .zero 0, .load 0 0, .store 0, .ser 0, .ldmsg 0,
      .add 0 0 0, .sub 0 0 0, .neg 0 0, .mul 0 0 0, .smul 0 0, .signal 0 0, .sampu 0, .sampg 0, .ench 0,
      .encr 0].map Instr.row := by
  simp [opcodeMap, Instr.row, Instr.mnemonic, opcodeOf, Instr.subForm, SubForm.zeroMask, fieldMask]

/-- A command's row does not depend on its operands. -/
theorem Instr.row_mem (i : Instr) : i.row ∈ opcodeMap := by
  rw [opcodeMap_eq_map_row]
  cases i <;> simp only [List.map, List.mem_cons, row, mnemonic, opcodeOf, subForm, true_or, or_true]

theorem exists_row_eq {r : OpcodeRow} (hr : r ∈ opcodeMap) : ∃ i : Instr, i.row = r := by
  rw [opcodeMap_eq_map_row] at hr
  obtain ⟨i, _, hi⟩ := List.mem_map.mp hr
  exact ⟨i, hi⟩

theorem opcodeOf_lt (i : Instr) : opcodeOf i < 256 := by
  cases i <;> simp [opcodeOf]

/-- Matching a row is what the decoder checks: the opcode, then the must-be-zero bits. -/
theorem Instr.row_matches_iff {i : Instr} :
    i.row.Matches w ↔ opField w = opcodeOf i ∧ i.subForm.zeroBits w = true := by
  have hop := opcodeOf_lt i
  have hpattern : BitVec.ofNat 32 (opcodeOf i * 2 ^ 24) &&& fieldMask 31 24 = BitVec.ofNat 32 (opcodeOf i * 2 ^ 24) := by
    rw [and_fieldMask_eq_iff (by omega)]
    simp only [bitField, BitVec.toNat_ofNat]
    omega
  rw [OpcodeRow.Matches, row, and_or_eq_iff hpattern i.subForm.opMask_and_zeroMask, and_fieldMask_eq_iff (by omega),
    SubForm.and_zeroMask_eq_zero_iff, opField]

theorem decode_of_row_matches {i : Instr} (h : i.row.Matches w) : decode w = .instr (i.withFields w) := by
  obtain ⟨hop, hzero⟩ := Instr.row_matches_iff.mp h
  rw [decode_of_opField hop, whenZero_eq_instr]
  exact ⟨hzero, rfl⟩

theorem row_matches_of_decode {i : Instr} (h : decode w = .instr i) : i.row.Matches w := by
  obtain ⟨hop, hzero, _⟩ := decode_eq_instr_iff.mp h
  exact Instr.row_matches_iff.mpr ⟨hop, hzero⟩

/-- No two rows share their pattern, which is the opcode (R54). -/
theorem opcodeMap_patterns_nodup : (opcodeMap.map OpcodeRow.pattern).Nodup := by
  decide

theorem eq_of_matches {r r' : OpcodeRow} (hr : r ∈ opcodeMap) (hr' : r' ∈ opcodeMap) (h : r.Matches w)
    (h' : r'.Matches w) : r = r' := by
  refine List.inj_on_of_nodup_map opcodeMap_patterns_nodup hr hr' ?_
  obtain ⟨i, rfl⟩ := exists_row_eq hr
  obtain ⟨j, rfl⟩ := exists_row_eq hr'
  obtain ⟨hop, _⟩ := Instr.row_matches_iff.mp h
  obtain ⟨hop', _⟩ := Instr.row_matches_iff.mp h'
  rw [Instr.row, Instr.row, ← hop, ← hop']

/-- Settles O6: a word that decodes matches its command's row; a row that matches has the decoder's opcode and
must-be-zero check; rows differ in their opcode. -/
theorem decodeFollowsTheOpcodeMap : Obligations.DecodeFollowsTheOpcodeMap := by
  refine fun w => ⟨fun i h => ?_, fun r hr h => ?_, fun r hr r' hr' => eq_of_matches hr hr'⟩
  · exact ⟨i.row, i.row_mem, rfl, row_matches_of_decode h⟩
  · obtain ⟨i, rfl⟩ := exists_row_eq hr
    exact ⟨i.withFields w, decode_of_row_matches h, i.mnemonic_withFields w⟩

theorem decode_illegal_of_unmatched (h : ∀ r ∈ opcodeMap, ¬ r.Matches w) : ∃ why, decode w = .illegal why := by
  cases hw : decode w with
  | illegal why => exact ⟨why, rfl⟩
  | instr i => exact absurd (row_matches_of_decode hw) (h i.row i.row_mem)

end Sys2Proof

namespace Sys2Proof.Machine

/-- A word that decodes as illegal raises ILLEGAL_COMMAND, when FAULT = 0 (60_exceptions.md R144). -/
theorem runCommand_of_illegal {s : State} {w : Cmd} {why : IllegalWord} (hw : decode w = .illegal why)
    (hfault : s.fault = false) : runCommand w s = .next (s.raise .illegalCommand w) := by
  simp [runCommand, hfault, hw]

/-- Settles O14: an unmatched word is illegal, so the step that takes it raises; the two words are compared with every
row. -/
theorem illegalWordRaisesIllegalCommand : Obligations.IllegalWordRaisesIllegalCommand := by
  constructor
  · intro s w rest hrst hcur hoffer hfault hunmatched
    obtain ⟨why, hw⟩ := decode_illegal_of_unmatched hunmatched
    rw [step_of_offered hrst hcur hoffer, runCommand_of_illegal hw (by exact hfault), State.raise, hcur]
  · unfold OpcodeRow.Matches
    decide

end Sys2Proof.Machine
end

section
/-! PROOFS. Creation commands without a configured ring, and the transfer commands ZERO, LOAD, STORE and SER
(40_element_transfer.md R70 to R74); where LOAD and LDMSG fault or wait (R72, R75, 20_memory.md R33). -/

namespace Sys2Proof.Machine

variable {s : State} {rd ra : Reg} {imm : Imm}

-- Creation (R70, R71).

/-- Each creation command checks the ring before anything else. -/
theorem exec_creation {i : Instr} (hi : i ∈ [.zero rd, .load rd imm, .sampu rd, .sampg rd, .ench rd, .encr rd])
    (s : State) : ∃ body, exec i s = withRing (encode i) s body := by
  simp only [List.mem_cons, List.not_mem_nil, or_false] at hi
  rcases hi with rfl | rfl | rfl | rfl | rfl | rfl
  · exact ⟨_, by rw [exec, execZero]⟩
  · exact ⟨_, by rw [exec, execLoad]⟩
  · exact ⟨_, by rw [exec, execSampu]⟩
  · exact ⟨_, by rw [exec, execSampg, sampgWith]⟩
  · exact ⟨_, by rw [exec, execEnch, enchWith]⟩
  · exact ⟨_, by rw [exec, execEncr]⟩

/-- Settles O30: the check of the ring fails, whatever the command would go on to do. -/
theorem unconfiguredCreationFaults : Obligations.UnconfiguredCreationFaults := by
  intro s rd imm i hunset hi
  obtain ⟨body, hexec⟩ := exec_creation hi s
  exact hexec.trans (withRing_unconfigured hunset)

theorem execZero_configured (hn : s.ringN ≠ 0) (hq : s.ringQ ≠ 0) :
    execZero rd s = complete rd ⟨s.ringN, s.ringQ, List.replicate s.ringN.toNat 0⟩ s :=
  withRing_configured hn hq

/-- Settles O31: the coefficients written are `ringN` copies of 0. -/
theorem zeroWritesTheZeroElement : Obligations.ZeroWritesTheZeroElement := by
  intro s rd hn hq
  exact ⟨List.replicate s.ringN.toNat 0, List.length_replicate, fun _ => List.eq_of_mem_replicate,
    execZero_configured hn hq⟩

-- LOAD (R72).

theorem execLoad_wrongCount (hn : s.ringN ≠ 0) (hq : s.ringQ ≠ 0) (himm : imm ≠ s.ringN) :
    execLoad rd imm s = .next (s.raise .sizeMismatch (encode (.load rd imm))) := by
  rw [execLoad, withRing_configured hn hq, if_pos himm]

/-- With the right count LOAD is left to wait for its words, or to take them. -/
theorem execLoad_rightCount (hn : s.ringN ≠ 0) (hq : s.ringQ ≠ 0) :
    execLoad rd s.ringN s = withDin (encode (.load rd s.ringN)) s.ringN.toNat s fun ws s' =>
      complete rd ⟨s.ringN, s.ringQ, ws.map fun w => coeff w.toInt s.ringQ⟩ s' := by
  rw [execLoad, withRing_configured hn hq, if_neg (not_not.mpr rfl)]

/-- Settles O32: the coefficients written are the reductions of the oldest n words of DIN, in their order. -/
theorem loadReducesSignedWords : Obligations.LoadReducesSignedWords := by
  intro s rd hn hq hdin
  refine ⟨(s.din.take s.ringN.toNat).map fun w => coeff w.toInt s.ringQ, ?_, fun j hj => ?_, ?_⟩
  · rw [List.length_map, List.length_take_of_le hdin]
  · have hj' : j < s.din.length := hj.trans_le hdin
    simp [List.getD_eq_getElem?_getD, hj, hj', coeff_toNat _ _ hq]
  · exact (execLoad_rightCount hn hq).trans (withDin_enough hdin)

-- LDMSG's check (R75).

theorem execLdmsg_tooLong (h : s.params.msgMax < imm.toNat) :
    execLdmsg imm s = .next (s.raise .messageTooLong (encode (.ldmsg imm))) :=
  if_pos h

/-- When its message fits, LDMSG is left to wait for its words, or to take them. -/
theorem execLdmsg_fits (h : imm.toNat ≤ s.params.msgMax) :
    execLdmsg imm s = withDin (encode (.ldmsg imm)) (messageWords imm.toNat) s fun ws s' =>
      .next (s'.setMessage (unpackBytes imm.toNat ws)).finish :=
  if_neg (Nat.not_lt.mpr h)

/-- Settles O33: each command makes its check first, and then waits for DIN. -/
theorem loadAndLdmsgFaultOrWait : Obligations.LoadAndLdmsgFaultOrWait := by
  refine ⟨fun s rd imm hn hq => ⟨execLoad_wrongCount hn hq, ?_⟩, fun s imm => ⟨execLdmsg_tooLong, ?_⟩⟩
  · rintro rfl hshort
    exact (execLoad_rightCount hn hq).trans (withDin_short hshort)
  · intro hfits hshort
    exact (execLdmsg_fits hfits).trans (withDin_short hshort)

-- STORE and SER (R73, R74).

theorem execStore_valid {a : Element} (ha : s.readReg ra = some a) :
    execStore ra s = .next (s.pushDout a.c).finish :=
  withSource_valid ha

theorem execSer_valid {a : Element} (ha : s.readReg ra = some a) :
    execSer ra s = .next (s.pushDout (serWords a)).finish :=
  withSource_valid ha

/-- Settles O34: the register read is valid, so its words are pushed; SER's first is the dimension, zero-extended. -/
theorem storeAndSerPushTheElement : Obligations.StoreAndSerPushTheElement := by
  intro s ra a ha
  exact ⟨execStore_valid ha, a.n.setWidth 64, BitVec.toNat_setWidth_of_le (by decide), execSer_valid ha⟩

end Sys2Proof.Machine
end

section
/-! PROOFS. The bytes of words (20_memory.md R31, R35): the byte string of an element (40_element_transfer.md R76), and the
message LDMSG unpacks from DIN (R75). -/

namespace Sys2Proof.Machine

-- The bytes of a word (R31).

theorem toNat_wordByte (w : Word) (t : Nat) : (wordByte w t).toNat = w.toNat / 2 ^ (8 * t) % 256 := by
  rw [wordByte, BitVec.extractLsb'_toNat, Nat.shiftRight_eq_div_pow]

@[simp] theorem length_wordBytes (w : Word) : (wordBytes w).length = 8 := by
  simp [wordBytes]

@[simp] theorem getElem_wordBytes (w : Word) {t : Nat} (ht : t < (wordBytes w).length) :
    (wordBytes w)[t] = wordByte w t := by
  simp [wordBytes]

/-- Bit i of a word is bit i mod 8 of its byte i / 8, so the bytes determine the word. -/
theorem eq_of_wordByte_eq {w w' : Word} (h : ∀ t < 8, wordByte w t = wordByte w' t) : w = w' := by
  refine BitVec.eq_of_getLsbD_eq fun i hi => ?_
  have hbit : ∀ v : Word, (wordByte v (i / 8)).getLsbD (i % 8) = v.getLsbD i := by
    intro v
    simp [wordByte, Nat.mod_lt, Nat.div_add_mod]
  rw [← hbit w, ← hbit w', h (i / 8) (by omega)]

theorem wordBytes_injective : Function.Injective wordBytes := by
  intro w w' h
  refine eq_of_wordByte_eq fun t ht => ?_
  have := congrArg (·[t]?) h
  simpa [ht] using this

-- The bytes of a list of words (R31, R35).

theorem length_flatMap_wordBytes (ws : List Word) : (ws.flatMap wordBytes).length = 8 * ws.length := by
  simp [List.length_flatMap, Nat.mul_comm]

/-- Byte 8j+t of a list of words is byte t of word j. -/
theorem getElem?_flatMap_wordBytes (ws : List Word) (j : Nat) {t : Nat} (ht : t < 8) :
    (ws.flatMap wordBytes)[8 * j + t]? = ws[j]?.map (wordByte · t) := by
  induction ws generalizing j with
  | nil => rfl
  | cons w ws ih =>
    rw [List.flatMap_cons]
    cases j with
    | zero =>
      rw [List.getElem?_append_left (by simpa using ht)]
      simp [ht]
    | succ j =>
      have hindex : 8 * (j + 1) + t - (wordBytes w).length = 8 * j + t := by
        rw [length_wordBytes]
        omega
      rw [List.getElem?_append_right (by rw [length_wordBytes]; omega), hindex, ih, List.getElem?_cons_succ]

theorem flatMap_wordBytes_injective : Function.Injective (List.flatMap wordBytes) := by
  intro ws
  induction ws with
  | nil =>
    intro ws' h
    have := congrArg List.length h
    rw [length_flatMap_wordBytes, length_flatMap_wordBytes] at this
    exact (List.eq_nil_of_length_eq_zero (by simpa using this.symm)).symm
  | cons w ws ih =>
    intro ws' h
    cases ws' with
    | nil => simpa using congrArg List.length h
    | cons w' ws' =>
      rw [List.flatMap_cons, List.flatMap_cons] at h
      obtain ⟨hw, hws⟩ := List.append_inj h (by simp)
      rw [wordBytes_injective hw, ih hws]

-- The byte string of an element (R74, R76).

theorem length_serWords {nMax : Nat} {e : Element} (he : e.WF nMax) : (serWords e).length = e.n.toNat + 2 := by
  obtain ⟨_, _, hlen, _⟩ := he
  simp [serWords, hlen]

/-- SER's words name the dimension, the modulus and every coefficient. -/
theorem serWords_injective : Function.Injective serWords := by
  rintro ⟨n, q, c⟩ ⟨n', q', c'⟩ h
  simp only [serWords, List.cons.injEq] at h
  obtain ⟨hn, rfl, rfl⟩ := h
  have hn' : n = n' := by simpa using congrArg (BitVec.setWidth 16) hn
  rw [hn']

theorem toBytes_injective : Function.Injective toBytes :=
  flatMap_wordBytes_injective.comp serWords_injective

/-- Settles O35: `toBytes` is the bytes of SER's words, and both the bytes and the words are injective. -/
theorem serialisationIsInjective : Obligations.SerialisationIsInjective := by
  refine ⟨fun nMax e he => ⟨?_, fun j t hj ht => ?_⟩, fun e e' h => toBytes_injective h⟩
  · rw [toBytes, length_flatMap_wordBytes, length_serWords he]
  · have hj' : j < (serWords e).length := (length_serWords he).symm ▸ hj
    simp [List.getD_eq_getElem?_getD, toBytes, getElem?_flatMap_wordBytes, ht, hj', toNat_wordByte]

-- The message (R75).

/-- Byte 8j+t of the message is byte t of DIN word j (R35). -/
theorem getElem?_unpackBytes {len j t : Nat} (ws : List Word) (ht : t < 8) (hlen : 8 * j + t < len) :
    (unpackBytes len ws)[8 * j + t]? = ws[j]?.map (wordByte · t) := by
  rw [unpackBytes, List.getElem?_take_of_lt hlen, getElem?_flatMap_wordBytes ws j ht]

/-- A message written to an empty MSGBUF is what its indexes hold, and no other index holds a value. -/
theorem Memory.read_writeBytes_nil (bs : List Byte) (a : Nat) : (Memory.writeBytes [] 0 bs).read a = bs[a]? := by
  rw [Memory.read_writeBytes]
  split
  · simp
  · rw [List.getElem?_eq_none (by omega), Memory.read]

/-- When the message fits and its words are there LDMSG sets MSG_LEN to its immediate, which is how many bytes it unpacks. -/
theorem execLdmsg_completes {s : State} {imm : Imm} (hfits : imm.toNat ≤ s.params.msgMax)
    (hdin : messageWords imm.toNat ≤ s.din.length) :
    execLdmsg imm s = .next
      { s with
        msgLen := imm
        msgbuf := Memory.writeBytes [] 0 (unpackBytes imm.toNat (s.din.take (messageWords imm.toNat)))
        din := s.din.drop (messageWords imm.toNat)
        cur := none } := by
  have hlen := length_unpackBytes (List.length_take_of_le hdin)
  rw [execLdmsg_fits hfits, withDin_enough hdin, State.setMessage, hlen, BitVec.ofNat_toNat, BitVec.setWidth_eq]
  rfl

/-- Settles O36: MSGBUF becomes the bytes unpacked from the words taken, of which there are as many as the length says. -/
theorem ldmsgLoadsTheMessage : Obligations.LdmsgLoadsTheMessage := by
  intro s imm hfits hdin
  refine ⟨_, ?canonical, ?held, ?absent, execLdmsg_completes hfits hdin⟩
  case canonical => exact Memory.writeBytes_wf _ _ _ rfl
  case held =>
    intro j t ht hindex
    have htaken : j < messageWords imm.toNat := by
      rw [messageWords]
      omega
    have hj : j < s.din.length := htaken.trans_le hdin
    refine ⟨wordByte s.din[j] t, ?_, ?_⟩
    · simp [Memory.read_writeBytes_nil, getElem?_unpackBytes, ht, hindex, htaken, hj]
    · simp [toNat_wordByte, List.getD_eq_getElem?_getD, hj]
  case absent =>
    intro a ha
    have hlen := length_unpackBytes (List.length_take_of_le hdin)
    rw [Memory.read_writeBytes_nil, List.getElem?_eq_none (hlen.trans_le ha)]

end Sys2Proof.Machine
end

section
/-! PROOFS. What the commands of ring arithmetic check of their sources, and that their result has the source's tag
(41_ring_arithmetic.md R80, R81). -/

namespace Sys2Proof.Machine

variable {cmd : Cmd} {s : State} {rd ra rb : Reg} {a b : Element}

-- Two sources (R80).

theorem withSources_uninit {body : Element → Element → Result} (h : s.readReg ra = none ∨ s.readReg rb = none) :
    withSources cmd ra rb s body = .next (s.raise .uninitOperand cmd) := by
  cases ha : s.readReg ra with
  | none => exact withSource_invalid ha
  | some a => exact (withSource_valid ha).trans (withSource_invalid (h.resolve_left (by simp [ha])))

theorem withSources_mismatch {body : Element → Element → Result} (ha : s.readReg ra = some a)
    (hb : s.readReg rb = some b) (hne : a.n ≠ b.n ∨ a.q ≠ b.q) :
    withSources cmd ra rb s body = .next (s.raise .dimensionMismatch cmd) := by
  rw [withSources, withSource_valid ha, withSource_valid hb, if_neg (by tauto)]

/-- ADD, SUB and MUL check their sources alike, and differ in the coefficients only. -/
theorem exec_twoSource {i : Instr} (hi : i ∈ [.add rd ra rb, .sub rd ra rb, .mul rd ra rb]) (s : State) :
    ∃ f : Element → Element → List Word,
      exec i s = withSources (encode i) ra rb s fun a b => complete rd ⟨a.n, a.q, f a b⟩ s := by
  simp only [List.mem_cons, List.not_mem_nil, or_false] at hi
  rcases hi with rfl | rfl | rfl
  · exact ⟨fun a b => addCoeffs a.q a.c b.c, rfl⟩
  · exact ⟨fun a b => subCoeffs a.q a.c b.c, rfl⟩
  · exact ⟨fun a b => mulCoeffs a.n.toNat a.q a.c b.c, rfl⟩

/-- Settles O37: whatever the coefficients, an invalid source is found first, then a difference of the tags. -/
theorem twoSourceChecks : Obligations.TwoSourceChecks := by
  intro s rd ra rb i hi
  obtain ⟨f, hexec⟩ := exec_twoSource hi s
  rw [hexec]
  refine ⟨withSources_uninit, fun a b ha hb => ⟨withSources_mismatch ha hb, fun hn hq => ⟨f a b, ?_⟩⟩⟩
  exact withSources_valid ha hb hn hq

-- One source (R81).

/-- The five commands with one source check it alike. -/
theorem exec_oneSource {i : Instr} (hi : i ∈ [.neg rd ra, .smul rd ra, .signal rd ra, .store ra, .ser ra]) (s : State) :
    ∃ body, exec i s = withSource (encode i) ra s body := by
  simp only [List.mem_cons, List.not_mem_nil, or_false] at hi
  rcases hi with rfl | rfl | rfl | rfl | rfl
  · exact ⟨_, by rw [exec, execNeg]⟩
  · exact ⟨_, by rw [exec, execSmul]⟩
  · exact ⟨_, by rw [exec, execSignal]⟩
  · exact ⟨_, by rw [exec, execStore]⟩
  · exact ⟨_, by rw [exec, execSer]⟩

theorem execNeg_valid (ha : s.readReg ra = some a) :
    execNeg rd ra s = complete rd ⟨a.n, a.q, negCoeffs a.q a.c⟩ s :=
  withSource_valid ha

theorem execSmul_valid (ha : s.readReg ra = some a) :
    execSmul rd ra s = complete rd ⟨a.n, a.q, smulCoeffs a.q s.k a.c⟩ s :=
  withSource_valid ha

theorem execSignal_valid (ha : s.readReg ra = some a) :
    execSignal rd ra s = complete rd ⟨a.n, a.q, a.c.map (signalCoeff a.q)⟩ s :=
  withSource_valid ha

/-- Settles O38: the source is checked before anything else, and each of the three results is written under its tag. -/
theorem oneSourceChecks : Obligations.OneSourceChecks := by
  intro s rd ra
  constructor
  · intro i hi hinvalid
    obtain ⟨body, hexec⟩ := exec_oneSource hi s
    exact hexec.trans (withSource_invalid hinvalid)
  · intro i hi a ha
    simp only [List.mem_cons, List.not_mem_nil, or_false] at hi
    rcases hi with rfl | rfl | rfl
    · exact ⟨_, execNeg_valid ha⟩
    · exact ⟨_, execSmul_valid ha⟩
    · exact ⟨_, execSignal_valid ha⟩

end Sys2Proof.Machine
end

section
/-! PROOFS. The coefficients of ADD, SUB, NEG and SMUL (41_ring_arithmetic.md R82 to R84, R87), and the laws of negation
(R90 (b), (c), (d)). -/

namespace Sys2Proof.Machine

variable {s : State} {rd ra rb : Reg} {a b : Element} {q : Word}

-- What a valid register holds (10_state.md R11, R12).

/-- A register that meets the invariant holds as many coefficients as its tag says. -/
theorem State.Inv.length_coeffs (hI : s.Inv) (ha : s.readReg ra = some a) : a.c.length = a.n.toNat := by
  obtain ⟨_, _, hlen, _⟩ := hI.regs ra a ha
  exact hlen

theorem State.Inv.modulus_legal (hI : s.Inv) (ha : s.readReg ra = some a) : legalModulus a.q = true := by
  obtain ⟨_, hq, _, _⟩ := hI.regs ra a ha
  exact hq

theorem State.Inv.modulus_ne_zero (hI : s.Inv) (ha : s.readReg ra = some a) : a.q ≠ 0 :=
  legalModulus_ne_zero a.q (hI.modulus_legal ha)

theorem State.Inv.coeffs_lt (hI : s.Inv) (ha : s.readReg ra = some a) : ∀ x ∈ a.c, x.toNat < a.q.toNat := by
  obtain ⟨_, _, _, hlt⟩ := hI.regs ra a ha
  exact hlt

-- Lists of coefficients, index by index.

theorem getD_zipWith {α β γ : Type} (f : α → β → γ) {as : List α} {bs : List β} {j : Nat} (ha : j < as.length)
    (hb : j < bs.length) (da : α) (db : β) (dc : γ) :
    (List.zipWith f as bs).getD j dc = f (as.getD j da) (bs.getD j db) := by
  simp [List.getD_eq_getElem?_getD, ha, hb]

theorem getD_map_of_lt {α β : Type} (f : α → β) {as : List α} {j : Nat} (ha : j < as.length) (da : α) (db : β) :
    (as.map f).getD j db = f (as.getD j da) := by
  simp [List.getD_eq_getElem?_getD, ha]

theorem getD_mem_of_lt {α : Type} {as : List α} {j : Nat} (ha : j < as.length) (d : α) : as.getD j d ∈ as := by
  simp [List.getD_eq_getElem?_getD, ha]

-- ADD, SUB, SMUL (R82, R83, R87).

theorem execAdd_valid (ha : s.readReg ra = some a) (hb : s.readReg rb = some b) (hn : a.n = b.n) (hq : a.q = b.q) :
    execAdd rd ra rb s = complete rd ⟨a.n, a.q, addCoeffs a.q a.c b.c⟩ s :=
  withSources_valid ha hb hn hq

theorem execSub_valid (ha : s.readReg ra = some a) (hb : s.readReg rb = some b) (hn : a.n = b.n) (hq : a.q = b.q) :
    execSub rd ra rb s = complete rd ⟨a.n, a.q, subCoeffs a.q a.c b.c⟩ s :=
  withSources_valid ha hb hn hq

@[simp] theorem length_addCoeffs (q : Word) (f g : List Word) :
    (addCoeffs q f g).length = min f.length g.length :=
  List.length_zipWith

@[simp] theorem length_subCoeffs (q : Word) (f g : List Word) :
    (subCoeffs q f g).length = min f.length g.length :=
  List.length_zipWith

@[simp] theorem length_smulCoeffs (q k : Word) (f : List Word) : (smulCoeffs q k f).length = f.length :=
  List.length_map _

theorem getD_addCoeffs (q : Word) {f g : List Word} {j : Nat} (hf : j < f.length) (hg : j < g.length) :
    (addCoeffs q f g).getD j 0 = coeff ((f.getD j 0).toNat + (g.getD j 0).toNat) q :=
  getD_zipWith _ hf hg 0 0 0

theorem getD_subCoeffs (q : Word) {f g : List Word} {j : Nat} (hf : j < f.length) (hg : j < g.length) :
    (subCoeffs q f g).getD j 0 = coeff ((f.getD j 0).toNat - (g.getD j 0).toNat) q :=
  getD_zipWith _ hf hg 0 0 0

theorem getD_smulCoeffs (q k : Word) {f : List Word} {j : Nat} (hf : j < f.length) :
    (smulCoeffs q k f).getD j 0 = coeff ((f.getD j 0).toNat * k.toNat) q :=
  getD_map_of_lt _ hf 0 0

/-- Settles O39: each coefficient written is the reduced sum of the two read. -/
theorem addAddsCoefficientwise : Obligations.AddAddsCoefficientwise := by
  intro s rd ra rb a b hI ha hb hn hq
  have hlenA := hI.length_coeffs ha
  have hlenB : b.c.length = a.n.toNat := hn ▸ hI.length_coeffs hb
  refine ⟨addCoeffs a.q a.c b.c, by simp [hlenA, hlenB], fun j hj => ?_, execAdd_valid ha hb hn hq⟩
  rw [getD_addCoeffs a.q (hlenA ▸ hj) (hlenB ▸ hj), coeff_toNat _ _ (hI.modulus_ne_zero ha)]

/-- Settles O40: each coefficient written is the reduced difference of the two read. -/
theorem subSubtractsCoefficientwise : Obligations.SubSubtractsCoefficientwise := by
  intro s rd ra rb a b hI ha hb hn hq
  have hlenA := hI.length_coeffs ha
  have hlenB : b.c.length = a.n.toNat := hn ▸ hI.length_coeffs hb
  refine ⟨subCoeffs a.q a.c b.c, by simp [hlenA, hlenB], fun j hj => ?_, execSub_valid ha hb hn hq⟩
  rw [getD_subCoeffs a.q (hlenA ▸ hj) (hlenB ▸ hj), coeff_toNat _ _ (hI.modulus_ne_zero ha)]

/-- Settles O43: each coefficient written is the reduced product of the one read and K. -/
theorem smulScalesByK : Obligations.SmulScalesByK := by
  intro s rd ra a hI ha
  have hlen := hI.length_coeffs ha
  refine ⟨smulCoeffs a.q s.k a.c, by simp [hlen], fun j hj => ?_, execSmul_valid ha⟩
  rw [getD_smulCoeffs a.q s.k (hlen ▸ hj), coeff_toNat _ _ (hI.modulus_ne_zero ha)]

-- NEG (R84).

/-- NEG on one coefficient. -/
def negCoeff (q x : Word) : Word := if x = 0 then 0 else q - x

theorem negCoeffs_eq_map (q : Word) (f : List Word) : negCoeffs q f = f.map (negCoeff q) := rfl

@[simp] theorem length_negCoeffs (q : Word) (f : List Word) : (negCoeffs q f).length = f.length :=
  List.length_map _

theorem getD_negCoeffs (q : Word) {f : List Word} {j : Nat} (hf : j < f.length) :
    (negCoeffs q f).getD j 0 = negCoeff q (f.getD j 0) :=
  getD_map_of_lt _ hf 0 0

/-- The subtraction of words does not borrow: the coefficient is below the modulus. -/
theorem toNat_negCoeff {x : Word} (hx : x.toNat < q.toNat) :
    (negCoeff q x).toNat = if x.toNat = 0 then 0 else q.toNat - x.toNat := by
  unfold negCoeff
  split <;> split <;> bv_omega

/-- The negative of x differs from −x by 0 or by q. -/
theorem toNat_negCoeff_eq_fmod {x : Word} (hx : x.toNat < q.toNat) :
    ((negCoeff q x).toNat : Int) = fmod (-x.toNat) q.toNat := by
  rw [toNat_negCoeff hx]
  split
  · next h0 => simp [h0, fmod_zero_left]
  · next h0 =>
    refine eq_fmod_of_dvd_sub (by omega) (by omega) ⟨-1, ?_⟩
    rw [Int.natCast_sub hx.le]
    ring

theorem negCoeff_negCoeff {x : Word} (hx : x.toNat < q.toNat) : negCoeff q (negCoeff q x) = x := by
  have hneg := toNat_negCoeff hx
  apply BitVec.eq_of_toNat_eq
  rw [toNat_negCoeff (by split at hneg <;> omega)]
  split at hneg <;> split <;> omega

/-- Settles O41: the two forms of the rule are two lemmas on one coefficient below the modulus. -/
theorem negNegatesCoefficientwise : Obligations.NegNegatesCoefficientwise := by
  intro s rd ra a hI ha
  have hlen := hI.length_coeffs ha
  refine ⟨negCoeffs a.q a.c, by simp [hlen], fun j hj => ?_, execNeg_valid ha⟩
  have hj' : j < a.c.length := hlen ▸ hj
  have hlt := hI.coeffs_lt ha _ (getD_mem_of_lt hj' 0)
  rw [getD_negCoeffs a.q hj']
  exact ⟨toNat_negCoeff hlt, toNat_negCoeff_eq_fmod hlt⟩

-- The laws of negation (R90 (b), (c), (d)).

theorem negCoeffs_negCoeffs {f : List Word} (hf : ∀ x ∈ f, x.toNat < q.toNat) : negCoeffs q (negCoeffs q f) = f := by
  rw [negCoeffs_eq_map, negCoeffs_eq_map, List.map_map]
  exact (List.map_congr_left fun x hx => negCoeff_negCoeff (hf x hx)).trans f.map_id

theorem State.readReg_finish_writeReg (s : State) (rd : Reg) (e : Element) :
    (s.writeReg rd e).finish.readReg rd = some e := by
  rw [State.readReg_finish, State.readReg_writeReg_same]

/-- Of two writes to one register the second stands. -/
theorem complete_finish_writeReg (rd : Reg) (e e' : Element) (s : State) :
    complete rd e' (s.writeReg rd e).finish = complete rd e' s := by
  simp [complete_eq, State.writeReg, State.finish]

/-- Settles O47: the first NEG leaves the negated element in Pd, and the second negates it back. -/
theorem negTwiceCopies : Obligations.NegTwiceCopies := by
  intro s rd ra a hI ha
  refine ⟨_, execNeg_valid ha, (execNeg_valid (State.readReg_finish_writeReg s rd _)).trans ?_⟩
  rw [complete_finish_writeReg, negCoeffs_negCoeffs (hI.coeffs_lt ha), complete_eq]

/-- Reductions of congruent numbers are the same coefficient. -/
theorem coeff_congr {x y : Int} (h : (x : ZMod q.toNat) = y) : coeff x q = coeff y q := by
  rw [coeff, coeff, fmod, fmod, (ZMod.intCast_eq_intCast_iff' x y q.toNat).mp h]

/-- A coefficient is congruent to the number it is the reduction of. -/
@[simp] theorem cast_toNat_coeff (x : Int) (hq : q ≠ 0) : ((coeff x q).toNat : ZMod q.toNat) = x := by
  rw [← Int.cast_natCast, coeff_toNat x q hq, fmod, ZMod.intCast_mod]

theorem cast_toNat_negCoeff {x : Word} (hx : x.toNat < q.toNat) :
    ((negCoeff q x).toNat : ZMod q.toNat) = -x.toNat := by
  rw [← Int.cast_natCast, toNat_negCoeff_eq_fmod hx, fmod, ZMod.intCast_mod]
  push_cast
  rfl

theorem coeff_add_negCoeff (x : Int) {y : Word} (hy : y.toNat < q.toNat) :
    coeff (x + (negCoeff q y).toNat) q = coeff (x - y.toNat) q := by
  apply coeff_congr
  push_cast [cast_toNat_negCoeff hy]
  ring

theorem coeff_zero (q : Word) : coeff 0 q = 0 := by
  simp [coeff, fmod_zero_left]

theorem subCoeffs_eq_addCoeffs_negCoeffs (f : List Word) {g : List Word} (hg : ∀ x ∈ g, x.toNat < q.toNat) :
    subCoeffs q f g = addCoeffs q f (negCoeffs q g) := by
  refine List.ext_getElem (by simp) fun j hj _ => ?_
  have hjg : j < g.length := by simp at hj; omega
  simp only [subCoeffs, addCoeffs, negCoeffs_eq_map, List.getElem_zipWith, List.getElem_map]
  exact (coeff_add_negCoeff _ (hg _ (List.getElem_mem hjg))).symm

theorem subCoeffs_self (q : Word) (f : List Word) : ∀ x ∈ subCoeffs q f f, x = 0 := by
  simp [subCoeffs, List.zipWith_self, coeff_zero]

/-- Settles O48: adding −y is subtracting y, one coefficient at a time, and f − f is 0. -/
theorem negIsTheAdditiveInverse : Obligations.NegIsTheAdditiveInverse := by
  refine ⟨fun q f _ hf => ?_, fun q f g _ _ hg => subCoeffs_eq_addCoeffs_negCoeffs f hg⟩
  rw [← subCoeffs_eq_addCoeffs_negCoeffs f hf]
  exact subCoeffs_self q f

end Sys2Proof.Machine
end

section
/-! PROOFS. The rounding of SIGNAL (41_ring_arithmetic.md R88, R90 (g), R93). -/

namespace Sys2Proof.Machine

variable {q : Word}

-- One coefficient.

theorem toNat_signalCoeff (q x : Word) : (signalCoeff q x).toNat =
    if cdist x.toNat 0 q.toNat < cdist x.toNat (half q.toNat) q.toNat then 0 else half q.toNat := by
  rw [signalCoeff, apply_ite BitVec.toNat, toNat_half]
  rfl

/-- 0 is nearer to 0 than to half(q), which is at least 1. -/
theorem nearer_zero_of_zero (hq : 2 ≤ q.toNat) : cdist 0 0 q.toNat < cdist 0 (half q.toNat) q.toNat := by
  rw [cdist_self 0 (Int.natCast_nonneg _), cdist, half]
  omega

/-- half(q) is at distance 0 from itself, and no distance is less. -/
theorem not_nearer_zero_of_half (q : Word) :
    ¬cdist (half q.toNat) 0 q.toNat < cdist (half q.toNat) (half q.toNat) q.toNat := by
  rw [cdist_self _ (Int.natCast_nonneg _), not_lt]
  apply cdist_nonneg
  rw [half, sub_zero, abs_of_nonneg (by omega)]
  omega

/-- half(q) is not 0, so an output is 0 only when the rounding chose 0. -/
theorem toNat_signalCoeff_eq_zero_iff (hq : 2 ≤ q.toNat) (x : Word) : (signalCoeff q x).toNat = 0 ↔
    cdist x.toNat 0 q.toNat < cdist x.toNat (half q.toNat) q.toNat := by
  have hhalf : half q.toNat ≠ 0 := by
    rw [half]
    omega
  rw [toNat_signalCoeff]
  simp [hhalf]

theorem toNat_signalCoeff_of_zero (hq : 2 ≤ q.toNat) {x : Word} (hx : x.toNat = 0) : (signalCoeff q x).toNat = 0 := by
  rw [toNat_signalCoeff_eq_zero_iff hq, hx]
  exact nearer_zero_of_zero hq

theorem toNat_signalCoeff_of_half {x : Word} (hx : x.toNat = half q.toNat) :
    (signalCoeff q x).toNat = half q.toNat := by
  rw [toNat_signalCoeff, hx, if_neg (not_nearer_zero_of_half q)]

/-- Both outputs, 0 and half(q), round to themselves. -/
theorem signalCoeff_signalCoeff (hq : 2 ≤ q.toNat) (x : Word) : signalCoeff q (signalCoeff q x) = signalCoeff q x := by
  apply BitVec.eq_of_toNat_eq
  have hout := toNat_signalCoeff q x
  split at hout
  · rw [hout, toNat_signalCoeff_of_zero hq hout]
  · rw [hout, toNat_signalCoeff_of_half hout]

-- The command.

/-- Settles O44: each coefficient written is the rounding of the one read. -/
theorem signalRoundsToTheNearer : Obligations.SignalRoundsToTheNearer := by
  intro s rd ra a hI ha
  have hlen := hI.length_coeffs ha
  refine ⟨a.c.map (signalCoeff a.q), by simp [hlen], fun j hj => ?_, execSignal_valid ha⟩
  rw [getD_map_of_lt _ (hlen ▸ hj) 0, toNat_signalCoeff]

/-- SIGNAL of a valid register leaves the rounded coefficients in its destination. -/
theorem execSignal_written {s t : State} {rd ra : Reg} {a e : Element} (ha : s.readReg ra = some a)
    (h : execSignal rd ra s = .next t) (he : t.readReg rd = some e) : e.c = a.c.map (signalCoeff a.q) := by
  rw [execSignal_valid ha] at h
  cases h
  rw [State.readReg_finish_writeReg] at he
  cases he
  rfl

/-- Settles O45: the outputs are roundings, of which each clause is a lemma on one coefficient. -/
theorem signalRange : Obligations.SignalRange := by
  intro s rd ra a t e hI ha h he
  have hq := two_le_of_legalModulus (hI.modulus_legal ha)
  have hout : ∀ j < a.n.toNat, e.c.getD j 0 = signalCoeff a.q (a.c.getD j 0) := by
    intro j hj
    rw [execSignal_written ha h he, getD_map_of_lt _ (hI.length_coeffs ha ▸ hj) 0]
  refine ⟨?range, fun j hj => ?zero_iff, fun j hj => ⟨fun hx => ?zero, fun hx => ?half⟩⟩
  case range =>
    rw [execSignal_written ha h he]
    refine List.forall_mem_map.mpr fun x _ => ?_
    rw [toNat_signalCoeff]
    exact ite_eq_or_eq _ _ _
  case zero_iff => rw [hout j hj, toNat_signalCoeff_eq_zero_iff hq]
  case zero => rw [hout j hj, toNat_signalCoeff_of_zero hq hx]
  case half =>
    rw [hout j hj, toNat_signalCoeff_of_half hx, half]
    omega

/-- Settles O49: the second SIGNAL writes the element that stands in Pd already. -/
theorem signalIsIdempotent : Obligations.SignalIsIdempotent := by
  intro s rd ra a hI ha
  have hq := two_le_of_legalModulus (hI.modulus_legal ha)
  have hwritten := State.readReg_finish_writeReg s rd ⟨a.n, a.q, a.c.map (signalCoeff a.q)⟩
  refine ⟨_, _, execSignal_valid ha, hwritten, (execSignal_valid hwritten).trans ?_⟩
  rw [complete_finish_writeReg]
  simp [complete, Function.comp_def, signalCoeff_signalCoeff hq]

end Sys2Proof.Machine
end

section
/-! PROOFS. The product of two elements (41_ring_arithmetic.md R86, R92), and that ADD and MUL commute and MUL distributes
over ADD (R90 (a), (e)). -/

namespace Sys2Proof.Machine

open Finset (range)

-- The closed form (R92).

section
variable {R : Type} [CommRing R]

/-- The sum of the products f i · g j with i + j = m, over i and j below n. -/
def pairSum (n : Nat) (f g : Nat → R) (m : Nat) : R :=
  ∑ i ∈ range n, ∑ j ∈ range n, if i + j = m then f i * g j else 0

/-- Coefficient k of the product where xⁿ = −1. -/
def negacyclic (n : Nat) (f g : Nat → R) (k : Nat) : R := pairSum n f g k - pairSum n f g (k + n)

theorem pairSum_comm (n : Nat) (f g : Nat → R) (m : Nat) : pairSum n f g m = pairSum n g f m := by
  rw [pairSum, Finset.sum_comm]
  simp only [pairSum, add_comm, mul_comm]

theorem negacyclic_comm (n : Nat) (f g : Nat → R) (k : Nat) : negacyclic n f g k = negacyclic n g f k := by
  rw [negacyclic, pairSum_comm, pairSum_comm n f g, negacyclic]

theorem pairSum_add_right (n : Nat) (f g h : Nat → R) (m : Nat) :
    pairSum n f (fun j => g j + h j) m = pairSum n f g m + pairSum n f h m := by
  simp only [pairSum, ← Finset.sum_add_distrib]
  refine Finset.sum_congr rfl fun i _ => Finset.sum_congr rfl fun j _ => ?_
  split <;> ring

theorem negacyclic_add_right (n : Nat) (f g h : Nat → R) (k : Nat) :
    negacyclic n f (fun j => g j + h j) k = negacyclic n f g k + negacyclic n f h k := by
  simp only [negacyclic, pairSum_add_right]
  ring

theorem pairSum_congr_right {n : Nat} (f : Nat → R) {g h : Nat → R} (hgh : ∀ j < n, g j = h j) (m : Nat) :
    pairSum n f g m = pairSum n f h m := by
  refine Finset.sum_congr rfl fun i _ => Finset.sum_congr rfl fun j hj => ?_
  rw [hgh j (Finset.mem_range.mp hj)]

theorem negacyclic_congr_right {n : Nat} (f : Nat → R) {g h : Nat → R} (hgh : ∀ j < n, g j = h j) (k : Nat) :
    negacyclic n f g k = negacyclic n f h k := by
  rw [negacyclic, pairSum_congr_right f hgh, pairSum_congr_right f hgh, negacyclic]

@[simp] theorem intCast_pairSum (n : Nat) (f g : Nat → Int) (m : Nat) :
    ((pairSum n f g m : Int) : R) = pairSum n (fun i => (f i : R)) (fun j => (g j : R)) m := by
  simp [pairSum, apply_ite (Int.cast : Int → R)]

@[simp] theorem intCast_negacyclic (n : Nat) (f g : Nat → Int) (k : Nat) :
    ((negacyclic n f g k : Int) : R) = negacyclic n (fun i => (f i : R)) (fun j => (g j : R)) k := by
  simp [negacyclic]

end

-- The accumulator (R86).

/-- A fold whose step adds `g i x` to the quantity `φ`, for element x at index i, adds the sum of these over the list; `Ok`
is what the step needs of the value folded, and keeps. -/
theorem foldl_zipIdx_adds {α σ R : Type} [AddCommMonoid R] (φ : σ → R) (Ok : σ → Prop) (d : α) (l : List α) :
    ∀ (step : σ → α × Nat → σ) (g : Nat → α → R),
      (∀ acc p, Ok acc → Ok (step acc p) ∧ φ (step acc p) = φ acc + g p.2 p.1) →
      ∀ acc, Ok acc → φ (l.zipIdx.foldl step acc) = φ acc + ∑ i ∈ range l.length, g i (l.getD i d) := by
  induction l with
  | nil => simp
  | cons x l ih =>
    intro step g hstep acc hacc
    obtain ⟨hok, hadds⟩ := hstep acc (x, 0) hacc
    rw [List.zipIdx_cons, List.foldl_cons, List.zipIdx_succ, List.foldl_map,
      ih (fun acc p => step acc (p.1, p.2 + 1)) (fun i => g (i + 1)) (fun acc p => hstep acc (p.1, p.2 + 1)) _ hok, hadds,
      List.length_cons, Finset.sum_range_succ']
    simp only [List.getD_cons_succ, List.getD_cons_zero]
    abel

/-- Entry k of an accumulator, modulo q. -/
def accEntry (q k : Nat) (acc : List Nat) : ZMod q := (acc.getD k 0 : Nat)

/-- The update of R86 adds the product to entry m, modulo q, and leaves the others. -/
theorem accEntry_modify (q m y : Nat) {k : Nat} {acc : List Nat} (hk : k < acc.length) :
    accEntry q k (acc.modify m fun t => (t + y % q) % q) = accEntry q k acc + if m = k then (y : ZMod q) else 0 := by
  by_cases hm : m = k <;> simp [accEntry, List.getD_eq_getElem?_getD, hk, hm]

theorem accEntry_mulRow (q i : Nat) (x : Word) (b : List Word) {k : Nat} {acc : List Nat} (hk : k < acc.length) :
    accEntry q k (mulRow q i x b acc) = accEntry q k acc +
      ∑ j ∈ range b.length, if i + j = k then (x.toNat * (b.getD j 0).toNat : ZMod q) else 0 := by
  refine foldl_zipIdx_adds (accEntry q k) (k < ·.length) 0 b _
    (fun j y => if i + j = k then (x.toNat * y.toNat : ZMod q) else 0) (fun acc p hk => ⟨?_, ?_⟩) acc hk
  · rwa [List.length_modify]
  · rw [accEntry_modify q _ _ hk, Nat.cast_mul]

/-- The coefficients of a list, as integers by index. -/
def coeffAt (c : List Word) (j : Nat) : Int := (c.getD j 0).toNat

theorem accEntry_mulAcc {n : Nat} (q : Nat) {a b : List Word} (ha : a.length = n) (hb : b.length = n) {k : Nat}
    (hk : k < 2 * n) : accEntry q k (mulAcc n q a b) = (pairSum n (coeffAt a) (coeffAt b) k : Int) := by
  have hfold := foldl_zipIdx_adds (accEntry q k) (k < ·.length) 0 a (fun acc xi => mulRow q xi.2 xi.1 b acc)
    (fun i x => ∑ j ∈ range b.length, if i + j = k then (x.toNat * (b.getD j 0).toNat : ZMod q) else 0)
    (fun acc p hk => ⟨by rwa [mulRow_length], accEntry_mulRow q p.2 p.1 b hk⟩)
    (List.replicate (2 * n) 0) (by rwa [List.length_replicate])
  have hstart : accEntry q k (List.replicate (2 * n) 0) = 0 := by
    simp [accEntry, List.getD_eq_getElem?_getD, hk]
  rw [mulAcc, hfold, hstart, zero_add, ha, hb, intCast_pairSum, pairSum]
  simp only [coeffAt, Int.cast_natCast]

theorem accEntry_take (q : Nat) {n k : Nat} (hk : k < n) (acc : List Nat) :
    accEntry q k (acc.take n) = accEntry q k acc := by
  simp [accEntry, List.getD_eq_getElem?_getD, hk]

theorem accEntry_drop (q n k : Nat) (acc : List Nat) : accEntry q k (acc.drop n) = accEntry q (k + n) acc := by
  simp [accEntry, List.getD_eq_getElem?_getD, add_comm]

-- The product.

/-- The low half of the accumulator less the high half is the closed form, up to reduction. -/
theorem getD_mulCoeffs {n : Nat} (q : Word) {a b : List Word} (ha : a.length = n) (hb : b.length = n) {k : Nat}
    (hk : k < n) : (mulCoeffs n q a b).getD k 0 = coeff (negacyclic n (coeffAt a) (coeffAt b) k) q := by
  have hlo := accEntry_take q.toNat hk (mulAcc n q.toNat a b)
  have hhi := accEntry_drop q.toNat n k (mulAcc n q.toNat a b)
  rw [accEntry_mulAcc q.toNat ha hb (by omega), accEntry] at hlo hhi
  rw [mulCoeffs, getD_zipWith _ (by simp; omega) (by simp; omega) 0 0]
  apply coeff_congr
  rw [negacyclic, Int.cast_sub, Int.cast_sub, Int.cast_natCast, Int.cast_natCast, hlo, hhi]

theorem execMul_valid {s : State} {rd ra rb : Reg} {a b : Element} (ha : s.readReg ra = some a)
    (hb : s.readReg rb = some b) (hn : a.n = b.n) (hq : a.q = b.q) :
    execMul rd ra rb s = complete rd ⟨a.n, a.q, mulCoeffs a.n.toNat a.q a.c b.c⟩ s :=
  withSources_valid ha hb hn hq

/-- Settles O42: each coefficient written is the reduced closed form. -/
theorem mulIsTheNegacyclicConvolution : Obligations.MulIsTheNegacyclicConvolution := by
  intro s rd ra rb a b hI ha hb hn hq
  have hlenA := hI.length_coeffs ha
  have hlenB : b.c.length = a.n.toNat := hn ▸ hI.length_coeffs hb
  refine ⟨mulCoeffs a.n.toNat a.q a.c b.c, mulCoeffs_length _ _ _ _, fun k hk => ?_, execMul_valid ha hb hn hq⟩
  rw [getD_mulCoeffs a.q hlenA hlenB hk, coeff_toNat _ _ (hI.modulus_ne_zero ha)]
  rfl

-- ADD and MUL commute (R90 (a)).

theorem addCoeffs_comm (q : Word) (f g : List Word) : addCoeffs q f g = addCoeffs q g f :=
  List.zipWith_comm_of_comm fun x y => by rw [add_comm]

/-- Two lists of n coefficients that agree at each index below n are equal. -/
theorem eq_of_getD_eq {n : Nat} {c d : List Word} (hc : c.length = n) (hd : d.length = n)
    (h : ∀ k < n, c.getD k 0 = d.getD k 0) : c = d := by
  refine List.ext_getElem (hc.trans hd.symm) fun k hkc hkd => ?_
  simpa [List.getD_eq_getElem?_getD, hkc, hkd] using h k (hc ▸ hkc)

theorem mulCoeffs_comm {n : Nat} (q : Word) {a b : List Word} (ha : a.length = n) (hb : b.length = n) :
    mulCoeffs n q a b = mulCoeffs n q b a := by
  refine eq_of_getD_eq (mulCoeffs_length ..) (mulCoeffs_length ..) fun k hk => ?_
  rw [getD_mulCoeffs q ha hb hk, getD_mulCoeffs q hb ha hk, negacyclic_comm]

/-- Settles O46: with the sources swapped the tag is the same and so are the coefficients. -/
theorem addAndMulCommute : Obligations.AddAndMulCommute := by
  intro s rd ra rb a b hI ha hb hn hq
  have hlenA := hI.length_coeffs ha
  have hlenB : b.c.length = a.n.toNat := hn ▸ hI.length_coeffs hb
  constructor
  · calc execAdd rd ra rb s
      _ = complete rd ⟨a.n, a.q, addCoeffs a.q a.c b.c⟩ s := execAdd_valid ha hb hn hq
      _ = complete rd ⟨b.n, b.q, addCoeffs b.q b.c a.c⟩ s := by rw [addCoeffs_comm, hn, hq]
      _ = execAdd rd rb ra s := (execAdd_valid hb ha hn.symm hq.symm).symm
  · calc execMul rd ra rb s
      _ = complete rd ⟨a.n, a.q, mulCoeffs a.n.toNat a.q a.c b.c⟩ s := execMul_valid ha hb hn hq
      _ = complete rd ⟨b.n, b.q, mulCoeffs b.n.toNat b.q b.c a.c⟩ s := by
        rw [mulCoeffs_comm a.q hlenA hlenB, hn, hq]
      _ = execMul rd rb ra s := (execMul_valid hb ha hn.symm hq.symm).symm

-- MUL distributes over ADD (R90 (e)).

theorem cast_coeffAt_addCoeffs {q : Word} (hq : q ≠ 0) {f g : List Word} {j : Nat} (hf : j < f.length)
    (hg : j < g.length) :
    (coeffAt (addCoeffs q f g) j : ZMod q.toNat) = (coeffAt f j : ZMod q.toNat) + (coeffAt g j : ZMod q.toNat) := by
  simp only [coeffAt, getD_addCoeffs q hf hg, Int.cast_natCast, cast_toNat_coeff _ hq, Int.cast_add]

/-- The closed form is linear in its second factor, and reducing the factor or the summands does not change it modulo q. -/
theorem mulCoeffs_addCoeffs {n : Nat} {q : Word} (hq : q ≠ 0) {a b c : List Word} (ha : a.length = n)
    (hb : b.length = n) (hc : c.length = n) :
    mulCoeffs n q a (addCoeffs q b c) = addCoeffs q (mulCoeffs n q a b) (mulCoeffs n q a c) := by
  refine eq_of_getD_eq (mulCoeffs_length ..) (by simp) fun k hk => ?_
  rw [getD_mulCoeffs q ha (by simp [hb, hc]) hk, getD_addCoeffs q (by simpa) (by simpa), getD_mulCoeffs q ha hb hk,
    getD_mulCoeffs q ha hc hk]
  apply coeff_congr
  have hsum : ∀ j < n, (coeffAt (addCoeffs q b c) j : ZMod q.toNat) = coeffAt b j + coeffAt c j := fun j hj =>
    cast_coeffAt_addCoeffs hq (hb ▸ hj) (hc ▸ hj)
  simp only [intCast_negacyclic, Int.cast_add, Int.cast_natCast, cast_toNat_coeff _ hq]
  rw [negacyclic_congr_right _ hsum, negacyclic_add_right]

/-- Settles O50: the three elements have one tag, so their lists have one length. -/
theorem mulDistributesOverAdd : Obligations.MulDistributesOverAdd := by
  rintro nMax a b c ⟨_, hq, ha, _⟩ ⟨_, _, hb, _⟩ ⟨_, _, hc, _⟩ hbn hcn _ _
  exact mulCoeffs_addCoeffs (legalModulus_ne_zero a.q hq) ha (hbn ▸ hb) (hcn ▸ hc)

end Sys2Proof.Machine
end

section
/-! PROOFS. The width of SAMPU's candidates (42_sampler.md R102), and what n draws of a known outcome come to (R100). -/

namespace Sys2Proof.Machine

-- The width of a candidate (R102).

theorem lt_two_pow_iff_bitlen_le {x : Nat} (hx : 1 ≤ x) (b : Nat) : x < 2 ^ b ↔ bitlen x ≤ b := by
  have hx0 : x ≠ 0 := Nat.one_le_iff_ne_zero.mp hx
  rw [bitlen, if_neg hx0, Nat.add_one_le_iff, Nat.log2_lt hx0]

theorem bitlen_pos {x : Nat} (hx : 1 ≤ x) : 1 ≤ bitlen x := by
  rw [bitlen, if_neg (Nat.one_le_iff_ne_zero.mp hx)]
  exact Nat.le_add_left 1 _

theorem le_two_pow_bitlen_pred {q : Nat} (hq : 2 ≤ q) : q ≤ 2 ^ bitlen (q - 1) := by
  have := (lt_two_pow_iff_bitlen_le (Nat.le_sub_one_of_lt hq) _).mpr le_rfl
  omega

/-- One bit less does not hold q − 1. -/
theorem two_pow_bitlen_pred_lt {q : Nat} (hq : 2 ≤ q) : 2 ^ bitlen (q - 1) < 2 * q := by
  have hpos : 1 ≤ bitlen (q - 1) := bitlen_pos (Nat.le_sub_one_of_lt hq)
  have hshort : ¬q - 1 < 2 ^ (bitlen (q - 1) - 1) := by
    rw [lt_two_pow_iff_bitlen_le (Nat.le_sub_one_of_lt hq)]
    omega
  rw [← Nat.two_pow_pred_mul_two hpos]
  omega

/-- Settles O3: the width is the number of the top bit plus one, so q − 1 fits in it and in no less. -/
theorem bitlenIsTheLeastWidth : Obligations.BitlenIsTheLeastWidth :=
  ⟨fun _ b hx => lt_two_pow_iff_bitlen_le hx b, fun _ hq => ⟨le_two_pow_bitlen_pred hq, two_pow_bitlen_pred_lt hq⟩⟩

-- Several draws (R100).

@[simp] theorem Draw.got_andThen {α β : Type} (x : α) (rest : List EntropyAnswer)
    (body : α → List EntropyAnswer → Draw β) : (Draw.got x rest).andThen body = body x rest := rfl

@[simp] theorem Draw.fails_andThen {α β : Type} (why : Cause) (rest : List EntropyAnswer)
    (body : α → List EntropyAnswer → Draw β) : (Draw.fails why rest).andThen body = .fails why rest := rfl

@[simp] theorem Draw.waits_andThen {α β : Type} (body : α → List EntropyAnswer → Draw β) :
    Draw.waits.andThen body = .waits := rfl

theorem Draw.andThen_assoc {α β γ : Type} (d : Draw α) (f : α → List EntropyAnswer → Draw β)
    (g : β → List EntropyAnswer → Draw γ) :
    (d.andThen f).andThen g = d.andThen fun x rest => (f x rest).andThen g := by
  cases d <;> rfl

theorem drawMany_zero {α : Type} (one : List EntropyAnswer → Draw α) (ent : List EntropyAnswer) :
    drawMany one 0 ent = .got [] ent := rfl

theorem drawMany_succ {α : Type} (one : List EntropyAnswer → Draw α) (n : Nat) (ent : List EntropyAnswer) :
    drawMany one (n + 1) ent =
      (one ent).andThen fun x ent => (drawMany one n ent).andThen fun xs ent => .got (x :: xs) ent := rfl

section

variable {ι α : Type} {one : List EntropyAnswer → Draw α} {answers : ι → List EntropyAnswer} {value : ι → α}
  {items : List ι} {n : Nat}

-- Each item's answers make one draw come to the item's value, whatever answers follow.
variable (hone : ∀ d ∈ items, ∀ rest, one (answers d ++ rest) = .got (value d) rest)

include hone

/-- The items' draws come first, and the draws that remain find the answers after them. -/
theorem drawMany_flatMap_append (m : Nat) (tail : List EntropyAnswer) :
    drawMany one (items.length + m) (items.flatMap answers ++ tail) =
      (drawMany one m tail).andThen fun xs rest => .got (items.map value ++ xs) rest := by
  induction items with
  | nil =>
    simp only [List.length_nil, Nat.zero_add, List.flatMap_nil, List.map_nil, List.nil_append]
    cases drawMany one m tail <;> rfl
  | cons d items ih =>
    obtain ⟨hd, hitems⟩ := List.forall_mem_cons.mp hone
    rw [List.length_cons, Nat.add_right_comm, List.flatMap_cons, List.append_assoc, drawMany_succ, hd,
      Draw.got_andThen, ih hitems, Draw.andThen_assoc]
    rfl

theorem drawMany_got (hlen : items.length = n) (rest : List EntropyAnswer) :
    drawMany one n (items.flatMap answers ++ rest) = .got (items.map value) rest := by
  simpa [hlen, drawMany_zero] using drawMany_flatMap_append hone 0 rest

/-- The draw after the items' draws decides when it comes to no value. -/
theorem drawMany_fails {tail rest : List EntropyAnswer} {why : Cause} (hlen : items.length < n)
    (htail : one tail = .fails why rest) :
    drawMany one n (items.flatMap answers ++ tail) = .fails why rest := by
  obtain ⟨m, rfl⟩ := Nat.exists_eq_add_of_lt hlen
  rw [Nat.add_assoc, drawMany_flatMap_append hone, drawMany_succ, htail, Draw.fails_andThen,
    Draw.fails_andThen]

theorem drawMany_waits {tail : List EntropyAnswer} (hlen : items.length < n) (htail : one tail = .waits) :
    drawMany one n (items.flatMap answers ++ tail) = .waits := by
  obtain ⟨m, rfl⟩ := Nat.exists_eq_add_of_lt hlen
  rw [Nat.add_assoc, drawMany_flatMap_append hone, drawMany_succ, htail, Draw.waits_andThen,
    Draw.waits_andThen]

end

-- What a sampler does with them (R100, 60_exceptions.md R145, 70_reset_and_hazards.md R179).

variable (cmd : Cmd) (rd : Reg) (n : Imm) (q : Word) (s : State) (rest : List EntropyAnswer)

theorem finishDraw_got (c : List Word) : finishDraw cmd rd n q s (.got c rest) =
    .next { s with p := s.p.set rd (some ⟨n, q, c⟩), ent := rest, cur := none } := rfl

theorem finishDraw_fails (why : Cause) : finishDraw cmd rd n q s (.fails why rest) =
    .next { s with ent := rest, fault := true, cause := why, fcmd := cmd, cur := none } := rfl

theorem finishDraw_waits : finishDraw cmd rd n q s .waits = .next { s with cur := some cmd } := rfl

end Sys2Proof.Machine
end

section
/-! PROOFS. What SAMPU comes to under any answers of the entropy port (42_sampler.md R101, R103). -/

namespace Sys2Proof.Machine

-- One coefficient (R101).

section

variable {q b limit rejects : Nat} {w : Word} {rejected : List Word} {rest : List EntropyAnswer}

theorem drawBelow_accepted (hw : w.toNat % 2 ^ b < q) :
    drawBelow q b limit rejects (.word w :: rest) = .got (BitVec.ofNat 64 (w.toNat % 2 ^ b)) rest := by
  rw [drawBelow, if_pos hw]

theorem drawBelow_rejected (hw : q ≤ w.toNat % 2 ^ b) : drawBelow q b limit rejects (.word w :: rest) =
    if rejects + 1 = limit then .fails .samplerExhausted rest else drawBelow q b limit (rejects + 1) rest := by
  rw [drawBelow, if_neg (Nat.not_lt.mpr hw)]

/-- Below the limit rejected words are counted, and the draw goes on with what follows them. -/
theorem drawBelow_map_rejected (hrejected : ∀ w ∈ rejected, q ≤ w.toNat % 2 ^ b)
    (hlimit : rejects + rejected.length < limit) (tail : List EntropyAnswer) :
    drawBelow q b limit rejects (rejected.map .word ++ tail) =
      drawBelow q b limit (rejects + rejected.length) tail := by
  induction rejected generalizing rejects with
  | nil => rfl
  | cons w rejected ih =>
    obtain ⟨hw, hrejected⟩ := List.forall_mem_cons.mp hrejected
    rw [List.length_cons] at hlimit ⊢
    rw [List.map_cons, List.cons_append, drawBelow_rejected hw, if_neg (by omega), ih hrejected (by omega),
      Nat.add_assoc, Nat.add_comm 1]

theorem drawBelow_failure (hrejected : ∀ w ∈ rejected, q ≤ w.toNat % 2 ^ b) (hlimit : rejected.length < limit) :
    drawBelow q b limit 0 (rejected.map .word ++ .failure :: rest) = .fails .entropyUnavailable rest := by
  rw [drawBelow_map_rejected hrejected (by omega), drawBelow]

theorem drawBelow_waits (hrejected : ∀ w ∈ rejected, q ≤ w.toNat % 2 ^ b) (hlimit : rejected.length < limit) :
    drawBelow q b limit 0 (rejected.map .word) = .waits := by
  simpa [drawBelow] using drawBelow_map_rejected (rejects := 0) hrejected (by omega) []

/-- The last rejected word is the one that reaches the limit. -/
theorem drawBelow_exhausted (hrejected : ∀ w ∈ rejected, q ≤ w.toNat % 2 ^ b) (hpos : 1 ≤ limit)
    (hlimit : rejected.length = limit) :
    drawBelow q b limit 0 (rejected.map .word ++ rest) = .fails .samplerExhausted rest := by
  obtain rfl | ⟨init, w, rfl⟩ := rejected.eq_nil_or_concat'
  · simp at hlimit
    omega
  · obtain ⟨hinit, hw⟩ := List.forall_mem_append.mp hrejected
    rw [List.length_append, List.length_singleton] at hlimit
    rw [List.map_append, List.append_assoc, drawBelow_map_rejected hinit (by omega), List.map_singleton,
      List.singleton_append, drawBelow_rejected (hw w (List.mem_singleton_self w)), if_pos (by omega)]

end

-- One coefficient's words: those rejected and the one accepted.

/-- Fewer than `limit` words whose low b bits are not below q, and one whose low b bits are. -/
def AcceptedWithin (q b limit : Nat) (d : List Word × Word) : Prop :=
  d.1.length < limit ∧ (∀ w ∈ d.1, q ≤ w.toNat % 2 ^ b) ∧ d.2.toNat % 2 ^ b < q

/-- The answers of the entropy port that give those words. -/
def drawAnswers (d : List Word × Word) : List EntropyAnswer := (d.1 ++ [d.2]).map .word

/-- The coefficient they give. -/
def drawnCoeff (b : Nat) (d : List Word × Word) : Word := BitVec.ofNat 64 (d.2.toNat % 2 ^ b)

theorem toNat_drawnCoeff (b : Nat) (d : List Word × Word) : (drawnCoeff b d).toNat = d.2.toNat % 2 ^ b :=
  Nat.mod_eq_of_lt ((Nat.mod_le _ _).trans_lt d.2.isLt)

theorem drawBelow_drawAnswers {q b limit : Nat} {d : List Word × Word} (hd : AcceptedWithin q b limit d)
    (rest : List EntropyAnswer) : drawBelow q b limit 0 (drawAnswers d ++ rest) = .got (drawnCoeff b d) rest := by
  obtain ⟨hlimit, hrejected, haccepted⟩ := hd
  rw [drawAnswers, List.map_append, List.append_assoc, drawBelow_map_rejected hrejected (by omega)]
  exact drawBelow_accepted haccepted

-- The command (R101).

theorem State.Inv.one_le_rejectLimit {s : State} (hI : s.Inv) : 1 ≤ s.params.rejectLimit := by
  have hparams := hI.params
  simp only [Config.Params.wellFormed, Bool.and_eq_true, decide_eq_true_eq] at hparams
  exact hparams.2

/-- The width of SAMPU's candidates. -/
def State.candidateBits (s : State) : Nat := bitlen (s.ringQ.toNat - 1)

section

variable {s : State} {rd : Reg} {draws : List (List Word × Word)} {rejected : List Word} {rest : List EntropyAnswer}
variable (hn : s.ringN ≠ 0) (hq : s.ringQ ≠ 0)

include hn hq

theorem execSampu_configured : execSampu rd s = finishDraw (encode (.sampu rd)) rd s.ringN s.ringQ s
    (drawMany (drawBelow s.ringQ.toNat s.candidateBits s.params.rejectLimit 0) s.ringN.toNat s.ent) :=
  withRing_configured hn hq

variable (hdraws : ∀ d ∈ draws, AcceptedWithin s.ringQ.toNat s.candidateBits s.params.rejectLimit d)

include hdraws

theorem execSampu_accepted {c : List Word} (hlen : draws.length = s.ringN.toNat)
    (hent : s.ent = draws.flatMap drawAnswers ++ rest) (hc : draws.map (drawnCoeff s.candidateBits) = c) :
    execSampu rd s =
      .next { s with p := s.p.set rd (some ⟨s.ringN, s.ringQ, c⟩), ent := rest, cur := none } := by
  rw [execSampu_configured hn hq, hent, drawMany_got (fun d hd => drawBelow_drawAnswers (hdraws d hd)) hlen,
    finishDraw_got, hc]

variable (hlen : draws.length < s.ringN.toNat)
  (hrejected : ∀ w ∈ rejected, s.ringQ.toNat ≤ w.toNat % 2 ^ s.candidateBits)

include hlen hrejected

theorem execSampu_failure (hlimit : rejected.length < s.params.rejectLimit)
    (hent : s.ent = draws.flatMap drawAnswers ++ (rejected.map .word ++ .failure :: rest)) :
    execSampu rd s = .next { s with
      ent := rest, fault := true, cause := .entropyUnavailable, fcmd := encode (.sampu rd), cur := none } := by
  rw [execSampu_configured hn hq, hent, drawMany_fails (fun d hd => drawBelow_drawAnswers (hdraws d hd)) hlen
    (drawBelow_failure hrejected hlimit), finishDraw_fails]

theorem execSampu_exhausted (hpos : 1 ≤ s.params.rejectLimit) (hlimit : rejected.length = s.params.rejectLimit)
    (hent : s.ent = draws.flatMap drawAnswers ++ (rejected.map .word ++ rest)) :
    execSampu rd s = .next { s with
      ent := rest, fault := true, cause := .samplerExhausted, fcmd := encode (.sampu rd), cur := none } := by
  rw [execSampu_configured hn hq, hent, drawMany_fails (fun d hd => drawBelow_drawAnswers (hdraws d hd)) hlen
    (drawBelow_exhausted hrejected hpos hlimit), finishDraw_fails]

theorem execSampu_waits (hlimit : rejected.length < s.params.rejectLimit)
    (hent : s.ent = draws.flatMap drawAnswers ++ rejected.map .word) :
    execSampu rd s = .next { s with cur := some (encode (.sampu rd)) } := by
  rw [execSampu_configured hn hq, hent, drawMany_waits (fun d hd => drawBelow_drawAnswers (hdraws d hd)) hlen
    (drawBelow_waits hrejected hlimit), finishDraw_waits, ← hent]

end

/-- Settles O51: each coefficient's draw comes to its accepted word's low bits and leaves the next coefficient's words. -/
theorem sampuTakesTheAcceptedWords : Obligations.SampuTakesTheAcceptedWords := by
  intro s rd draws rest _ hn hq hlen hdraws hent
  refine ⟨draws.map (drawnCoeff s.candidateBits), by simp [hlen], fun j hj => ?_,
    execSampu_accepted hn hq hdraws hlen hent rfl⟩
  rw [getD_map_of_lt _ (hlen ▸ hj) ([], 0), toNat_drawnCoeff, State.candidateBits]

/-- Settles O52: the draw after the completed ones decides, by what follows the words it rejects. -/
theorem sampuFaultsOrWaits : Obligations.SampuFaultsOrWaits := by
  intro s rd draws rejected rest hI hn hq hlen hdraws hrejected
  refine ⟨fun hlimit hent => ?failure, fun hlimit hent => ?exhausted, fun hlimit hent => ?waits⟩
  case failure =>
    exact execSampu_failure hn hq hdraws hlen hrejected hlimit (hent.trans (List.append_assoc ..))
  case exhausted =>
    exact execSampu_exhausted hn hq hdraws hlen hrejected hI.one_le_rejectLimit hlimit
      (hent.trans (List.append_assoc ..))
  case waits => exact execSampu_waits hn hq hdraws hlen hrejected hlimit hent

-- What SAMPU can reach (R103).

/-- A coefficient below q is drawn at once when the port answers the coefficient itself. -/
theorem acceptedWithin_self {q limit : Nat} {x : Word} (hpos : 1 ≤ limit) (hx : x.toNat < q) :
    AcceptedWithin q (bitlen (q - 1)) limit ([], x) :=
  ⟨hpos, nofun, (Nat.mod_le _ _).trans_lt hx⟩

theorem map_drawnCoeff_self {q : Nat} {c : List Word} (hq : 2 ≤ q) (hc : ∀ x ∈ c, x.toNat < q) :
    (c.map (Prod.mk [])).map (drawnCoeff (bitlen (q - 1))) = c := by
  have hself : ∀ x ∈ c, drawnCoeff (bitlen (q - 1)) ([], x) = x := fun x hx =>
    BitVec.eq_of_toNat_eq <|
      (toNat_drawnCoeff ..).trans (Nat.mod_eq_of_lt ((hc x hx).trans_le (le_two_pow_bitlen_pred hq)))
  rw [List.map_map]
  exact (List.map_congr_left hself).trans (List.map_id c)

/-- When q is no power of two, q itself is a candidate, and it is rejected. -/
theorem modulus_rejected {q : Nat} (hq : 2 ≤ q) (hpow : ∀ e, q ≠ 2 ^ e) : q ≤ q % 2 ^ bitlen (q - 1) :=
  (Nat.mod_eq_of_lt (lt_of_le_of_ne (le_two_pow_bitlen_pred hq) (hpow _))).ge

/-- Settles O53: the port answers the target itself; or fails at once; or answers RING_Q, which is no legal coefficient,
as often as REJECT_LIMIT says. -/
theorem sampuReachesEveryElement : Obligations.SampuReachesEveryElement := by
  intro s rd hI hn hq
  have htwo := hI.two_le_ringQ hq
  have hpos := hI.one_le_rejectLimit
  have hdim : 0 < s.ringN.toNat := Nat.pos_of_ne_zero fun h0 => hn (BitVec.eq_of_toNat_eq h0)
  refine ⟨fun c hlen hc => ?completes, ?failure, fun hpow => ?exhausted⟩
  case completes =>
    have hdraws : ∀ d ∈ c.map (Prod.mk []), AcceptedWithin s.ringQ.toNat s.candidateBits s.params.rejectLimit d :=
      List.forall_mem_map.mpr fun x hx => acceptedWithin_self hpos (hc x hx)
    exact ⟨_, execSampu_accepted (s := s.setEnt ((c.map (Prod.mk [])).flatMap drawAnswers)) hn hq hdraws
      ((List.length_map _).trans hlen) (List.append_nil _).symm (map_drawnCoeff_self htwo hc)⟩
  case failure =>
    exact ⟨[.failure], execSampu_failure (s := s.setEnt [.failure]) (draws := []) (rejected := []) hn hq nofun hdim
      nofun hpos rfl⟩
  case exhausted =>
    have hrejected : ∀ w ∈ List.replicate s.params.rejectLimit s.ringQ,
        s.ringQ.toNat ≤ w.toNat % 2 ^ s.candidateBits := fun w hw => by
      rw [List.eq_of_mem_replicate hw]
      exact modulus_rejected htwo hpow
    exact ⟨_, execSampu_exhausted (s := s.setEnt ((List.replicate s.params.rejectLimit s.ringQ).map .word))
      (draws := []) hn hq nofun hdim hrejected hpos List.length_replicate (List.append_nil _).symm⟩

end Sys2Proof.Machine
end

section
/-! PROOFS. What SAMPG comes to under any answers of the entropy port, for any GAUSS (42_sampler.md R104, R106, R108 (b)). -/

namespace Sys2Proof.Machine

-- One coefficient: w1, then w2 (R104).

/-- The answers of the entropy port that give the two words of one coefficient. -/
def pairAnswers (d : Word × Word) : List EntropyAnswer := [.word d.1, .word d.2]

variable {g : Word → Word → Imm → Int} {q : Word} {sg : Imm} {left ws : List Word} {rest : List EntropyAnswer}

theorem drawGauss_pairAnswers (d : Word × Word) (rest : List EntropyAnswer) :
    drawGauss g q sg (pairAnswers d ++ rest) = .got (coeff (g d.1 d.2 sg) q) rest := rfl

/-- A failure answers the first or the second request of the coefficient. -/
theorem drawGauss_failure (hleft : left.length < 2) :
    drawGauss g q sg (left.map .word ++ .failure :: rest) = .fails .entropyUnavailable rest := by
  match left, hleft with
  | [], _ => rfl
  | [_], _ => rfl

theorem drawGauss_waits (hleft : left.length < 2) : drawGauss g q sg (left.map .word) = .waits := by
  match left, hleft with
  | [], _ => rfl
  | [_], _ => rfl

/-- Any words are the pairs of some coefficients and at most one word more. -/
theorem exists_pairs : ∀ ws : List Word, ∃ (pairs : List (Word × Word)) (left : List Word),
    ws.map EntropyAnswer.word = pairs.flatMap pairAnswers ++ left.map .word ∧
      ws.length = 2 * pairs.length + left.length ∧ left.length < 2
  | [] => ⟨[], [], rfl, rfl, by simp⟩
  | [w] => ⟨[], [w], rfl, rfl, by simp⟩
  | w1 :: w2 :: ws => by
    obtain ⟨pairs, left, hws, hlen, hleft⟩ := exists_pairs ws
    refine ⟨(w1, w2) :: pairs, left, by simp [hws, pairAnswers], ?_, hleft⟩
    simp only [List.length_cons, hlen]
    omega

-- The command (R104).

section

variable {s : State} {rd : Reg} {pairs : List (Word × Word)}
variable (hn : s.ringN ≠ 0) (hq : s.ringQ ≠ 0)

include hn hq

theorem sampgWith_configured : sampgWith g rd s = finishDraw (encode (.sampg rd)) rd s.ringN s.ringQ s
    (drawMany (drawGauss g s.ringQ s.sigma) s.ringN.toNat s.ent) :=
  withRing_configured hn hq

theorem sampgWith_pairs (hlen : pairs.length = s.ringN.toNat) (hent : s.ent = pairs.flatMap pairAnswers ++ rest) :
    sampgWith g rd s = .next { s with
      p := s.p.set rd (some ⟨s.ringN, s.ringQ, pairs.map fun d => coeff (g d.1 d.2 s.sigma) s.ringQ⟩)
      ent := rest, cur := none } := by
  rw [sampgWith_configured hn hq, hent, drawMany_got (fun d _ => drawGauss_pairAnswers d) hlen, finishDraw_got]

theorem sampgWith_failure (hlen : ws.length < 2 * s.ringN.toNat) (hent : s.ent = ws.map .word ++ .failure :: rest) :
    sampgWith g rd s = .next { s with
      ent := rest, fault := true, cause := .entropyUnavailable, fcmd := encode (.sampg rd), cur := none } := by
  obtain ⟨pairs, left, hws, hwords, hleft⟩ := exists_pairs ws
  rw [sampgWith_configured hn hq, hent, hws, List.append_assoc,
    drawMany_fails (fun d _ => drawGauss_pairAnswers d) (by omega) (drawGauss_failure hleft), finishDraw_fails]

theorem sampgWith_waits (hlen : ws.length < 2 * s.ringN.toNat) (hent : s.ent = ws.map .word) :
    sampgWith g rd s = .next { s with cur := some (encode (.sampg rd)) } := by
  obtain ⟨pairs, left, hws, hwords, hleft⟩ := exists_pairs ws
  rw [sampgWith_configured hn hq, hent, hws,
    drawMany_waits (fun d _ => drawGauss_pairAnswers d) (by omega) (drawGauss_waits hleft), finishDraw_waits,
    ← hws, ← hent]

end

/-- Settles O54: each pair of words comes to one reduced value of GAUSS and leaves the next pair. -/
theorem sampgReducesGauss : Obligations.SampgReducesGauss := by
  intro s rd pairs rest hn hq hlen hent
  refine ⟨pairs.map fun d : Word × Word => coeff (Config.gauss d.1 d.2 s.sigma) s.ringQ, by simp [hlen], fun j hj => ?_,
    sampgWith_pairs hn hq hlen hent⟩
  rw [getD_map_of_lt _ (hlen ▸ hj) (0, 0), coeff_toNat _ _ hq]

/-- Settles O55: after fewer than 2n words a coefficient is left whose first or second request is not answered by a word. -/
theorem sampgFaultsOrWaits : Obligations.SampgFaultsOrWaits := by
  intro s rd ws rest hn hq hlen
  exact ⟨sampgWith_failure hn hq hlen, sampgWith_waits hn hq hlen⟩

-- No deviation (R108 (b)).

/-- Settles O56: the 2n words are n pairs with none left over, and every pair comes to the reduction of 0. -/
theorem sampgWithoutDeviationIsZero : Obligations.SampgWithoutDeviationIsZero := by
  intro g s rd ws rest hzero hsigma hn hq hlen hent
  obtain ⟨pairs, left, hws, hwords, hleft⟩ := exists_pairs ws
  obtain rfl : left = [] := List.eq_nil_of_length_eq_zero (by omega)
  have hpairs : pairs.length = s.ringN.toNat := by simpa [hlen] using hwords.symm
  have hcoeffs : (pairs.map fun d => coeff (g d.1 d.2 s.sigma) s.ringQ) = List.replicate s.ringN.toNat 0 := by
    rw [← hpairs]
    exact List.map_eq_replicate_iff.mpr fun d _ => by rw [hsigma, hzero, coeff_zero]
  rw [hws, List.map_nil, List.append_nil] at hent
  rw [sampgWith_pairs hn hq hpairs hent, hcoeffs]

end Sys2Proof.Machine
end

section
/-! PROOFS. The block counter's bytes (43_encoder.md R117), the bits of a byte string (R116), and the elements ENCH and ENCR
write from them (R118, R119). -/

namespace Sys2Proof.Machine

-- The counter bytes (R117).

theorem map_toNat_counterBytes_little (ctr : BitVec 32) : (counterBytes .little ctr).map BitVec.toNat =
    [ctr.toNat % 256, ctr.toNat / 2 ^ 8 % 256, ctr.toNat / 2 ^ 16 % 256, ctr.toNat / 2 ^ 24] := by
  have htop : ctr.toNat / 2 ^ 24 < 256 := by omega
  simpa [counterBytes, BitVec.extractLsb'_toNat, Nat.shiftRight_eq_div_pow] using htop

/-- Settles O58: the big order is the little one reversed by definition; the bytes of 0 and 1 are computed. -/
theorem counterBytesInEitherOrder : Obligations.CounterBytesInEitherOrder :=
  ⟨fun ctr => ⟨map_toNat_counterBytes_little ctr, rfl⟩, by decide, by decide, by decide, by decide⟩

-- The bits of a byte string and of the digests (R116).

/-- In a concatenation of blocks of k items, item k·j+t is item t of block j. -/
theorem getElem?_flatMap_of_length_eq {α β : Type} {f : α → List β} {k : Nat} (hf : ∀ a, (f a).length = k)
    (as : List α) (j : Nat) {t : Nat} (ht : t < k) : (as.flatMap f)[k * j + t]? = as[j]?.bind fun a => (f a)[t]? := by
  induction as generalizing j with
  | nil => rfl
  | cons a as ih =>
    rw [List.flatMap_cons]
    cases j with
    | zero => rw [Nat.mul_zero, Nat.zero_add, List.getElem?_append_left (by rwa [hf])]; rfl
    | succ j =>
      have hindex : k * (j + 1) + t = (f a).length + (k * j + t) := by rw [hf]; ring
      rw [hindex, List.getElem?_append_right (Nat.le_add_right ..), Nat.add_sub_cancel_left, ih, List.getElem?_cons_succ]

/-- The bits of one byte, most significant first. -/
def byteBits (y : Byte) : List Bool := [7, 6, 5, 4, 3, 2, 1, 0].map fun t => y.getLsbD t

theorem msbBits_eq_flatMap (bs : List Byte) : msbBits bs = bs.flatMap byteBits := rfl

theorem getElem?_byteBits (y : Byte) {t : Nat} (ht : t < 8) : (byteBits y)[t]? = some (y.getLsbD (7 - t)) := by
  have hpos : ∀ t < 8, [7, 6, 5, 4, 3, 2, 1, 0][t]? = some (7 - t) := by decide
  rw [byteBits, List.getElem?_map, hpos t ht, Option.map_some]

/-- Bit i is bit 7 − (i mod 8) of byte i / 8. -/
theorem getElem?_msbBits (bs : List Byte) (i : Nat) :
    (msbBits bs)[i]? = bs[i / 8]?.map fun y => y.getLsbD (7 - i % 8) := by
  have ht : i % 8 < 8 := Nat.mod_lt _ (by decide)
  have hsplit := getElem?_flatMap_of_length_eq (f := byteBits) (fun _ => rfl) bs (i / 8) ht
  rw [Nat.div_add_mod, ← msbBits_eq_flatMap] at hsplit
  simp only [hsplit, getElem?_byteBits _ ht, Option.map_eq_bind, Function.comp_def]

/-- Bit i of the digests is bit i mod 256 of the digest of block i / 256. -/
theorem getElem?_blockBits (hash : List Byte → Config.Digest) (e : Config.Endian) {n i : Nat} (m : List Byte)
    (hi : i < n) : (blockBits hash e n m)[i]? =
      (msbBits (hash (counterBytes e (BitVec.ofNat 32 (i / 256)) ++ m)).toList)[i % 256]? := by
  have hblock : i / 256 < (n + 255) / 256 := by omega
  have hlen : ∀ ctr, (msbBits (hash (counterBytes e (BitVec.ofNat 32 ctr) ++ m)).toList).length = 256 := fun ctr => by
    rw [length_msbBits, Vector.length_toList]
  have hsplit := getElem?_flatMap_of_length_eq hlen (List.range ((n + 255) / 256)) (i / 256)
    (Nat.mod_lt i (by decide : 256 > 0))
  rw [Nat.div_add_mod, List.getElem?_range hblock] at hsplit
  exact hsplit

-- The coefficients (R118, R119).

/-- A coefficient of ENCH is half(q) or 0, as its digest bit says. -/
theorem toNat_enchCoeffs (hash : List Byte → Config.Digest) (e : Config.Endian) {n i : Nat} (q : Word) (m : List Byte)
    (hi : i < n) : ((enchCoeffs hash e n q m).getD i 0).toNat =
      if ((hash (counterBytes e (BitVec.ofNat 32 (i / 256)) ++ m)).toList.getD (i % 256 / 8) 0).getLsbD (7 - i % 8)
      then q.toNat / 2 else 0 := by
  have hbyte : i % 256 / 8 < 32 := by omega
  have hbit : i % 256 % 8 = i % 8 := by omega
  rw [enchCoeffs, List.getD_eq_getElem?_getD, List.getElem?_map, List.getElem?_take_of_lt hi,
    getElem?_blockBits hash e m hi, getElem?_msbBits, hbit]
  simp [hbyte, apply_ite BitVec.toNat, toNat_half, -BitVec.toNat_ofNat]

/-- Bit i of the message followed by zeros. -/
theorem getElem?_msbBits_append_zeros {n i : Nat} (m : List Byte) (hi : i < n) :
    (msbBits m ++ List.replicate n false)[i]? =
      some (decide (i < 8 * m.length) && (m.getD (i / 8) 0).getLsbD (7 - i % 8)) := by
  have hlen := length_msbBits m
  by_cases hmsg : i < 8 * m.length
  · have hbyte : i / 8 < m.length := by omega
    rw [List.getElem?_append_left (hlen ▸ hmsg), getElem?_msbBits]
    simp [hmsg, hbyte]
  · have hzero : i - 8 * m.length < n := by omega
    rw [List.getElem?_append_right (by omega), hlen]
    simp [hmsg, hzero]

/-- A coefficient of ENCR is its bit of the message followed by zeros. -/
theorem toNat_encrCoeffs {n i : Nat} (m : List Byte) (hi : i < n) : ((encrCoeffs n m).getD i 0).toNat =
    if i < 8 * m.length ∧ (m.getD (i / 8) 0).getLsbD (7 - i % 8) then 1 else 0 := by
  rw [encrCoeffs, List.getD_eq_getElem?_getD, List.getElem?_map, List.getElem?_take_of_lt hi,
    getElem?_msbBits_append_zeros m hi]
  simp [apply_ite BitVec.toNat]

-- The commands (R116, R119, 70_reset_and_hazards.md R179).

section

variable {hash : List Byte → Config.Digest} {s : State} {rd : Reg} {m : List Byte}
variable (hn : s.ringN ≠ 0) (hq : s.ringQ ≠ 0)

include hn hq

theorem enchWith_waits (hwaits : s.hashWaits = true) :
    enchWith hash rd s = .next (s.hold (encode (.ench rd))) := by
  rw [enchWith, withRing_configured hn hq, if_pos hwaits]

theorem enchWith_answered (hanswers : s.hashWaits = false) (hm : s.message = some m) :
    enchWith hash rd s =
      complete rd ⟨s.ringN, s.ringQ, enchCoeffs hash s.params.ctrEndian s.ringN.toNat s.ringQ m⟩ s := by
  rw [enchWith, withRing_configured hn hq, if_neg (by simp [hanswers]), withMessage_present hm]

theorem execEncr_tooLong (hlong : s.ringN.toNat < 8 * s.msgLen.toNat) (hfault : s.params.encrOverlen = .fault) :
    execEncr rd s = .next (s.raise .messageTooLong (encode (.encr rd))) := by
  rw [execEncr, withRing_configured hn hq, if_pos ⟨hlong, hfault⟩]

theorem execEncr_accepted (hok : 8 * s.msgLen.toNat ≤ s.ringN.toNat ∨ s.params.encrOverlen = .truncate)
    (hm : s.message = some m) :
    execEncr rd s = complete rd ⟨s.ringN, s.ringQ, encrCoeffs s.ringN.toNat m⟩ s := by
  have hpasses : ¬(s.ringN.toNat < 8 * s.msgLen.toNat ∧ s.params.encrOverlen = .fault) := by
    rintro ⟨hlong, hfault⟩
    rcases hok with hfits | htruncate
    · exact Nat.not_lt.mpr hfits hlong
    · simp [hfault] at htruncate
  rw [execEncr, withRing_configured hn hq, if_neg hpasses, withMessage_present hm]

end

/-- Settles O57: bit i of the digests is found in its block, then in its byte. -/
theorem enchExpandsTheDigest : Obligations.EnchExpandsTheDigest := by
  refine ⟨fun s rd hn hq => enchWith_waits hn hq, fun s rd m hn hq hanswers hm => ?_⟩
  exact ⟨_, length_enchCoeffs .., fun _ => toNat_enchCoeffs _ _ _ m, enchWith_answered hn hq hanswers hm⟩

/-- Settles O59: a message that fits, or is truncated, gives its bits and then zeros; one too long meets the check. -/
theorem encrWritesTheMessageBits : Obligations.EncrWritesTheMessageBits := by
  intro s rd m hn hq hm hlen
  rw [← hlen]
  refine ⟨fun hok => ?accepted, fun hlong => ?tooLong⟩
  case accepted =>
    exact ⟨_, length_encrCoeffs .., fun _ => toNat_encrCoeffs m, execEncr_accepted hn hq (hlen ▸ hok) hm⟩
  case tooLong => exact execEncr_tooLong hn hq (hlen ▸ hlong)

end Sys2Proof.Machine
end

section
/-! PROOFS. What the control and configuration commands do: NOP and CLRF (44_config_control.md R125, R126), and SETN, SETQ,
SETK and SETSIG (R127 to R130), with the wait of SETQ and SETK for DIN (20_memory.md R33). -/

namespace Sys2Proof.Machine

variable {s : State} {w : Word} {rest : List Word}

-- NOP and CLRF (R125, R126).

/-- Settles O25: NOP only finishes. -/
theorem nopChangesNothing : Obligations.NopChangesNothing :=
  fun _ => rfl

/-- Settles O26: CLRF acknowledges the fault and finishes; neither asks what FAULT was. -/
theorem clrfAcknowledges : Obligations.ClrfAcknowledges :=
  ⟨rfl, fun _ => rfl⟩

-- SETN (R127).

/-- The engine's bit test `imm & (imm − 1) = 0` finds exactly the powers of two. -/
theorem isPowerOfTwo_toNat_iff {imm : Imm} : imm.toNat.isPowerOfTwo ↔ imm ≠ 0 ∧ imm &&& (imm - 1) = 0 := by
  have hne : imm.toNat ≠ 0 ↔ imm ≠ 0 := by simp [← BitVec.toNat_inj]
  rw [← Nat.ne_zero_and_sub_one_eq_zero_iff_isPowerOfTwo, hne]
  refine and_congr_right fun himm => ?_
  have hsub : (imm - 1).toNat = imm.toNat - 1 := by bv_omega
  rw [← BitVec.toNat_inj, BitVec.toNat_and, hsub]
  rfl

theorem legalDimension_iff {nMax : Nat} {imm : Imm} :
    legalDimension nMax imm = true ↔ imm.toNat.isPowerOfTwo ∧ imm.toNat ≤ nMax := by
  simp only [legalDimension, isPowerOfTwo_toNat_iff, Bool.and_eq_true, bne_iff_ne, beq_iff_eq, decide_eq_true_eq]

/-- Settles O27: SETN tests `legalDimension`, which holds of the powers of two up to N_MAX. -/
theorem setnSetsLegalDimensions : Obligations.SetnSetsLegalDimensions := by
  intro s imm
  constructor
  · intro hlegal
    exact if_pos (legalDimension_iff.mpr hlegal)
  · intro hillegal
    exact if_neg (mt legalDimension_iff.mp hillegal)

-- SETQ (R128).

theorem legalModulus_iff : legalModulus w = true ↔ 2 ≤ w.toNat ∧ w.toNat ≤ 2 ^ 63 - 1 := by
  simp only [legalModulus, Bool.and_eq_true, decide_eq_true_eq]

theorem execSetq_waits (hdin : s.din = []) : execSetq s = .next (s.hold (encode .setq)) := by
  rw [execSetq, hdin]

theorem execSetq_legal (hdin : s.din = w :: rest) (hw : legalModulus w = true) :
    execSetq s = .next { s with din := rest, ringQ := w }.finish := by
  simp only [execSetq, hdin, if_pos hw]

theorem execSetq_illegal (hdin : s.din = w :: rest) (hw : ¬legalModulus w = true) :
    execSetq s = .next ({ s with din := rest }.raise .configError (encode .setq)) := by
  simp only [execSetq, hdin, if_neg hw]

/-- Settles O28: an empty DIN makes SETQ wait; otherwise it takes the word and tests `legalModulus`. -/
theorem setqSetsLegalModuli : Obligations.SetqSetsLegalModuli := by
  refine ⟨rfl, fun s w rest hdin hlow hhigh => ?legal, fun s w rest hdin hout => ?illegal, fun s hdin => ?waits⟩
  case legal => exact execSetq_legal hdin (legalModulus_iff.mpr ⟨hlow, hhigh⟩)
  case illegal =>
    have hw : ¬legalModulus w = true := by
      rw [legalModulus_iff]
      omega
    exact execSetq_illegal hdin hw
  case waits => exact execSetq_waits hdin

-- SETK and SETSIG (R129, R130).

theorem execSetk_waits (hdin : s.din = []) : execSetk s = .next (s.hold (encode .setk)) := by
  rw [execSetk, hdin]

theorem execSetk_taken (hdin : s.din = w :: rest) : execSetk s = .next { s with din := rest, k := w }.finish := by
  rw [execSetk, hdin]

/-- Settles O29: SETK waits on an empty DIN and tests nothing of the word it takes; SETSIG tests nothing. -/
theorem setkAndSetsigTakeAnyValue : Obligations.SetkAndSetsigTakeAnyValue :=
  ⟨fun _ _ _ => execSetk_taken, fun _ => execSetk_waits, fun _ _ => rfl⟩

end Sys2Proof.Machine
end

section
/-! PROOFS. Faults: every step answers a next state (60_exceptions.md R140, R146), what a command that faults leaves (R141,
R145, R146), what a word does while FAULT = 1 (R147, R149), and the idle step (R155). -/

namespace Sys2Proof.Machine

variable {s s' t : State} {cmd w : Cmd} {i : Instr} {ra rb : Reg}

-- No command stops the machine (R140, R146). A shared operation answers a next state when what it goes
-- on to does.

theorem complete_isNext (rd : Reg) (e : Element) (s : State) : ∃ t, complete rd e s = .next t :=
  ⟨_, complete_eq rd e s⟩

theorem withRing_isNext {body : Imm → Word → Result} (hbody : ∃ t, body s.ringN s.ringQ = .next t) :
    ∃ t, withRing cmd s body = .next t := by
  by_cases hunset : s.ringN = 0 ∨ s.ringQ = 0
  · exact ⟨_, withRing_unconfigured hunset⟩
  · obtain ⟨hn, hq⟩ := not_or.mp hunset
    rwa [withRing_configured hn hq]

theorem withSource_isNext {body : Element → Result} (hbody : ∀ a, ∃ t, body a = .next t) :
    ∃ t, withSource cmd ra s body = .next t := by
  cases hra : s.readReg ra with
  | none => exact ⟨_, withSource_invalid hra⟩
  | some a =>
    rw [withSource_valid hra]
    exact hbody a

theorem withSources_isNext {body : Element → Element → Result} (hbody : ∀ a b, ∃ t, body a b = .next t) :
    ∃ t, withSources cmd ra rb s body = .next t := by
  refine withSource_isNext fun a => withSource_isNext fun b => ?_
  split
  · exact hbody a b
  · exact ⟨_, rfl⟩

theorem withDin_isNext {m : Nat} {body : List Word → State → Result} (hbody : ∀ ws s', ∃ t, body ws s' = .next t) :
    ∃ t, withDin cmd m s body = .next t := by
  rcases Nat.lt_or_ge s.din.length m with hshort | henough
  · exact ⟨_, withDin_short hshort⟩
  · rw [withDin_enough henough]
    exact hbody _ _

theorem withMessage_isNext {body : List Byte → Result} (hmsg : ∃ m, s.message = some m)
    (hbody : ∀ m, ∃ t, body m = .next t) : ∃ t, withMessage s body = .next t := by
  obtain ⟨m, hm⟩ := hmsg
  rw [withMessage_present hm]
  exact hbody m

theorem execSetn_isNext (imm : Imm) (s : State) : ∃ t, execSetn imm s = .next t := by
  unfold execSetn
  split <;> exact ⟨_, rfl⟩

theorem execSetq_isNext (s : State) : ∃ t, execSetq s = .next t := by
  cases hdin : s.din with
  | nil => exact ⟨_, execSetq_waits hdin⟩
  | cons w rest =>
    by_cases hw : legalModulus w = true
    · exact ⟨_, execSetq_legal hdin hw⟩
    · exact ⟨_, execSetq_illegal hdin hw⟩

theorem execSetk_isNext (s : State) : ∃ t, execSetk s = .next t := by
  cases hdin : s.din with
  | nil => exact ⟨_, execSetk_waits hdin⟩
  | cons w rest => exact ⟨_, execSetk_taken hdin⟩

theorem execZero_isNext (rd : Reg) (s : State) : ∃ t, execZero rd s = .next t :=
  withRing_isNext (complete_isNext _ _ _)

theorem execLoad_isNext (rd : Reg) (imm : Imm) (s : State) : ∃ t, execLoad rd imm s = .next t := by
  refine withRing_isNext ?_
  split
  · exact ⟨_, rfl⟩
  · exact withDin_isNext fun _ _ => complete_isNext _ _ _

theorem execLdmsg_isNext (imm : Imm) (s : State) : ∃ t, execLdmsg imm s = .next t := by
  unfold execLdmsg
  split
  · exact ⟨_, rfl⟩
  · exact withDin_isNext fun _ _ => ⟨_, rfl⟩

theorem execSampu_isNext (rd : Reg) (s : State) : ∃ t, execSampu rd s = .next t :=
  withRing_isNext (finishDraw_isNext _ _ _ _ _ _)

theorem sampgWith_isNext (g : Word → Word → Imm → Int) (rd : Reg) (s : State) : ∃ t, sampgWith g rd s = .next t :=
  withRing_isNext (finishDraw_isNext _ _ _ _ _ _)

theorem enchWith_isNext (hash : List Byte → Config.Digest) (rd : Reg) (hmsg : ∃ m, s.message = some m) :
    ∃ t, enchWith hash rd s = .next t := by
  refine withRing_isNext ?_
  split
  · exact ⟨_, rfl⟩
  · exact withMessage_isNext hmsg fun _ => complete_isNext _ _ _

theorem execEncr_isNext (rd : Reg) (hmsg : ∃ m, s.message = some m) : ∃ t, execEncr rd s = .next t := by
  refine withRing_isNext ?_
  split
  · exact ⟨_, rfl⟩
  · exact withMessage_isNext hmsg fun _ => complete_isNext _ _ _

/-- Only ENCH and ENCR can stop, for want of a message byte (10_state.md R20). -/
theorem exec_isNext (i : Instr) (hmsg : ∃ m, s.message = some m) : ∃ t, exec i s = .next t := by
  cases i with
  | nop | clrf | setsig _ => exact ⟨_, rfl⟩
  | setn imm => exact execSetn_isNext imm s
  | setq => exact execSetq_isNext s
  | setk => exact execSetk_isNext s
  | zero rd => exact execZero_isNext rd s
  | load rd imm => exact execLoad_isNext rd imm s
  | store _ | ser _ => exact withSource_isNext fun _ => ⟨_, rfl⟩
  | ldmsg imm => exact execLdmsg_isNext imm s
  | add _ _ _ | sub _ _ _ | mul _ _ _ => exact withSources_isNext fun _ _ => complete_isNext _ _ _
  | neg _ _ | smul _ _ | signal _ _ => exact withSource_isNext fun _ => complete_isNext _ _ _
  | sampu rd => exact execSampu_isNext rd s
  | sampg rd => exact sampgWith_isNext Config.gauss rd s
  | ench rd => exact enchWith_isNext Config.hash rd hmsg
  | encr rd => exact execEncr_isNext rd hmsg

/-- While FAULT = 1 a word that is not CLRF is over at once (R147). -/
theorem runCommand_discarded (hfault : s.fault = true) (hw : w ≠ clrfWord) : runCommand w s = .next s.finish :=
  if_pos ⟨hfault, hw⟩

theorem runCommand_isNext (w : Cmd) (hmsg : ∃ m, s.message = some m) : ∃ t, runCommand w s = .next t := by
  by_cases hdiscarded : s.fault = true ∧ w ≠ clrfWord
  · obtain ⟨hfault, hw⟩ := hdiscarded
    exact ⟨_, runCommand_discarded hfault hw⟩
  rw [runCommand, if_neg hdiscarded]
  cases decode w with
  | illegal why => exact ⟨_, rfl⟩
  | instr i => exact exec_isNext i hmsg

theorem State.busy_eq_false_iff : s.busy = false ↔ s.cur = none := by
  simp [State.busy]

theorem step_of_reset (hrst : s.rstIn = true) : step s = .next s.afterReset := by
  simp [step, engineStep, hrst]

theorem step_of_idle (hrst : s.rstIn = false) (hcur : s.cur = none) (hoffer : s.cmdIn = []) : step s = .next s := by
  simp [step, engineStep, hrst, hcur, hoffer]

/-- Settles O12: a step resets, or idles, or runs one word; the invariant gives the message, which taking a word leaves. -/
theorem stepNeverStops : Obligations.StepNeverStops := by
  intro s hI
  obtain ⟨m, hmsg, _⟩ := s.message_isSome fun a => (hI.msgHeld a).mpr
  cases hrst : s.rstIn with
  | true => exact ⟨_, step_of_reset hrst⟩
  | false =>
    cases hcur : s.cur with
    | some w =>
      rw [step_of_inProgress hrst hcur]
      exact runCommand_isNext w ⟨m, hmsg⟩
    | none =>
      cases hoffer : s.cmdIn with
      | nil => exact ⟨_, step_of_idle hrst hcur hoffer⟩
      | cons w rest =>
        rw [step_of_offered hrst hcur hoffer]
        exact runCommand_isNext w ⟨m, hmsg⟩

/-- Settles O16: an engine that is not busy has no command in progress, so with none offered the step is idle. -/
theorem idleEngineKeepsItsState : Obligations.IdleEngineKeepsItsState :=
  fun _ hrst hbusy hoffer => step_of_idle hrst (State.busy_eq_false_iff.mp hbusy) hoffer

-- A word while FAULT = 1 (R147, R149).

/-- Settles O15: the word is taken and finished undecoded, which leaves `cur` empty again. -/
theorem faultedEngineDiscards : Obligations.FaultedEngineDiscards := by
  intro s w rest hrst hcur hoffer hfault hw
  rw [step_of_offered hrst hcur hoffer, runCommand_discarded (by exact hfault) hw, State.finish, hcur]

theorem encode_clrf : encode .clrf = clrfWord := rfl

/-- While FAULT = 1 a word is discarded, or it is CLRF and acknowledges the fault (R147, R148). -/
theorem runCommand_faulted (hfault : s.fault = true) (h : runCommand w s = .next t) :
    (w ≠ clrfWord ∧ t = s.finish) ∨ (w = clrfWord ∧ t = s.acknowledge.finish) := by
  by_cases hw : w = clrfWord
  · rw [runCommand_of_decode (hw ▸ decode_clrfWord) (.inr hw)] at h
    cases h
    exact .inr ⟨hw, rfl⟩
  · rw [runCommand_discarded hfault hw] at h
    cases h
    exact .inl ⟨hw, rfl⟩

/-- Taking a word leaves FAULT, CAUSE and FCMD. -/
theorem Taken.status (h : Taken w s s') : s'.fault = s.fault ∧ s'.cause = s.cause ∧ s'.fcmd = s.fcmd := by
  rw [h.keeps]
  exact ⟨rfl, rfl, rfl⟩

/-- Settles O17: a reset clears the fault, an idle step keeps it, and of the words only CLRF touches it. -/
theorem faultsNeverNest : Obligations.FaultsNeverNest := by
  intro s t hfault h
  rcases step_cases h with ⟨hrst, rfl⟩ | ⟨_, _, rfl⟩ | ⟨_, w, s', hword, htaken, hrun⟩
  · exact .inr ⟨rfl, rfl, rfl, .inl hrst⟩
  · exact .inl ⟨hfault, rfl, rfl⟩
  · obtain ⟨hf, hcause, hfcmd⟩ := htaken.status
    rcases runCommand_faulted (hf.trans hfault) hrun with ⟨_, rfl⟩ | ⟨rfl, rfl⟩
    · exact .inl ⟨hf.trans hfault, hcause, hfcmd⟩
    · exact .inr ⟨rfl, rfl, rfl, .inr hword⟩

-- A command that faults (R141, R145, R146).

/-- A command that completes with FAULT = 0 leaves FAULT = 0; CLRF, which `Completed` does not bind, does so by itself. -/
theorem Completed.fault_eq_false (h : Completed i s t) (hexec : exec i s = .next t) (hfault : s.fault = false) :
    t.fault = false := by
  by_cases hi : i = .clrf
  · subst hi
    cases hexec
    rfl
  · obtain ⟨hkept, _⟩ := h.fault hi
    exact hkept.trans hfault

/-- Settles O18: a command that holds or completes raises nothing, so the one that raised is `Faulted`. -/
theorem faultingCommandLeavesOnlyItsTraces : Obligations.FaultingCommandLeavesOnlyItsTraces := by
  intro i s t hclear hexec hraised
  rcases exec_cases hexec with ⟨rfl, _⟩ | hfaulted | hcompleted
  · simp [hclear] at hraised
  · exact ⟨hfaulted.next, hfaulted.din, hfaulted.popped, hfaulted.ent, hfaulted.drawn⟩
  · simp [hcompleted.fault_eq_false hexec hclear] at hraised

end Sys2Proof.Machine
end

section
/-! PROOFS. The reset step (70_reset_and_hazards.md R170, R171), and that only its own command or a reset changes a setting
(R178). -/

namespace Sys2Proof.Machine

variable {s s' t : State} {w : Cmd} {i : Instr}

-- The reset step (R170, R171).

@[simp] theorem State.readReg_afterReset (s : State) (r : Reg) : s.afterReset.readReg r = none :=
  State.readReg_resetWith s.params r

/-- Settles O9: the step is the reset, which leaves every register invalid; each further item is a field of the state it
leaves. -/
theorem resetInputResets : Obligations.ResetInputResets := fun s hrst =>
  ⟨s.afterReset, step_of_reset hrst, State.readReg_afterReset s, rfl, rfl, rfl, rfl, rfl, rfl, rfl, rfl, rfl, rfl, rfl,
    State.afterReset_cmdIn s, State.afterReset_params s⟩

-- The settings (R178).

/-- What R178 calls sticky: K, SIGMA, RING_N, RING_Q, MSG_LEN and MSGBUF. -/
structure Settings where
  k : Word
  sigma : Imm
  ringN : Imm
  ringQ : Word
  msgLen : Imm
  msgbuf : Memory

def State.settings (s : State) : Settings :=
  { k := s.k, sigma := s.sigma, ringN := s.ringN, ringQ := s.ringQ, msgLen := s.msgLen, msgbuf := s.msgbuf }

theorem State.settings_eq_iff : t.settings = s.settings ↔ t.k = s.k ∧ t.sigma = s.sigma ∧ t.ringN = s.ringN ∧
    t.ringQ = s.ringQ ∧ t.msgLen = s.msgLen ∧ t.msgbuf = s.msgbuf := by
  simp only [State.settings, Settings.mk.injEq]

theorem Faulted.settings (h : Faulted i s t) : t.settings = s.settings := by
  obtain ⟨_, _, ht⟩ := h.next
  rw [ht]
  rfl

theorem Taken.settings (h : Taken w s s') : s'.settings = s.settings := by
  rw [h.keeps]
  rfl

/-- A word that is discarded or illegal leaves the settings, and so does a command that holds or faults. -/
theorem runCommand_settings (h : runCommand w s = .next t) :
    t.settings = s.settings ∨ ∃ i, encode i = w ∧ Completed i s t := by
  rcases runCommand_next h with ⟨_, _, rfl⟩ | ⟨_, ⟨_, _, rfl⟩ | ⟨i, hw, hexec⟩⟩
  · exact .inl rfl
  · exact .inl rfl
  · rcases exec_cases hexec with ⟨rfl, _⟩ | hfaulted | hcompleted
    · exact .inl rfl
    · exact .inl hfaulted.settings
    · exact .inr ⟨i, encodeOfDecode w i hw, hcompleted⟩

/-- Without a reset a step leaves the settings, unless it takes a command that completes. -/
theorem step_settings (hrst : s.rstIn = false) (h : step s = .next t) : t.settings = s.settings ∨
    ∃ i s', s.nextWord = some (encode i) ∧ s'.settings = s.settings ∧ Completed i s' t := by
  rcases step_cases h with ⟨hreset, _⟩ | ⟨_, _, rfl⟩ | ⟨_, w, s', hword, htaken, hrun⟩
  · rw [hrst] at hreset
    cases hreset
  · exact .inl rfl
  · rcases runCommand_settings hrun with hkept | ⟨i, rfl, hcompleted⟩
    · exact .inl (hkept.trans htaken.settings)
    · exact .inr ⟨i, s', hword, htaken.settings, hcompleted⟩

/-- Settles O20: a step that changes a setting completes a command, and what a completed command may change
(`Completed`) says which command it is. -/
theorem settingsAreSticky : Obligations.SettingsAreSticky := by
  intro s t hrst h
  rcases step_settings hrst h with hkept | ⟨i, s', hword, hkept, hcompleted⟩
  · obtain ⟨hk, hsigma, hn, hq, hlen, hbuf⟩ := State.settings_eq_iff.mp hkept
    exact ⟨.inl hk, .inl hsigma, .inl hn, .inl hq, .inl ⟨hlen, fun a => by rw [hbuf]⟩⟩
  · obtain ⟨hk, hsigma, hn, hq, hlen, hbuf⟩ := State.settings_eq_iff.mp hkept
    have hruns : ∀ j, i = j → s.nextWord = some (encode j) := fun _ hi => hi ▸ hword
    exact ⟨hcompleted.k.imp (·.trans hk) (hruns _),
      hcompleted.sigma.imp (·.trans hsigma) (.imp fun _ => hruns _),
      hcompleted.ringN.imp (·.trans hn) (.imp fun _ => hruns _),
      hcompleted.ringQ.imp (·.trans hq) (hruns _),
      hcompleted.message.imp (fun ⟨hlen', hbuf'⟩ => ⟨hlen'.trans hlen, fun a => by rw [hbuf', hbuf]⟩)
        (.imp fun _ => hruns _)⟩

end Sys2Proof.Machine
end
